-- ==== Sys2Proof/Word.lean ====
section
/-! DEFINITION. The pattern types of the block (rules R6, R8): bit patterns only; offsets, indices and
counts are natural numbers (rule R10) and are not here. -/

namespace Sys2Proof

/-- One element of BUF: BYTE_W = 8 bits, bit 7 the high bit (rules R6, R7). -/
abbrev Byte := BitVec 8

/-- A Value: a pattern of VALUE_W = 64 bits, read as `toNat` (the spec's u64) or `toInt` (s64) (rule R8). -/
abbrev Value := BitVec 64

/-- The operand of the fixed32 packer: a pattern of FIXED_W = 32 bits (rule R6). -/
abbrev Fixed := BitVec 32

end Sys2Proof
end

