-- ==== Sys2Proof/Config.lean ====
section
/-! DEFINITION. What the build fixes (rule R6), the launch parameters State.reset uses, and the free values. -/

namespace Sys2Proof.Config

/-- The default of OFF_W, the width of an offset, of AUX and of every index (rule R6, D2). OFF_W itself is OPEN: it is the
argument `offW` of the decoder and the encoder and the field `offW` of State (log 1). -/
abbrev defaultOffW : Nat := 32

/-- 2^OFF_W: offsets, counts, indices and capacities are natural numbers below it (rules R6, R10). -/
def indexBound (offW : Nat) : Nat := 2 ^ offW

/-- The width of CMD (rule R66). -/
abbrev cmdWidth (offW : Nat) : Nat := 72 + 2 * offW

/-- GROUP_W, payload bits per varint byte (rule R6). -/
abbrev groupW : Nat := 7

/-- MAX_VARINT, the longest varint emitted or accepted, in bytes (rule R6). -/
abbrev maxVarint : Nat := 10

/-- The SIZE that SIZEU gives a pattern with bit 63 set. Rule R87 states 10; 93_implementation_defined.md U1
asks that it be one named parameter of the model (log 10). -/
def sizeuNeg (_ : Value) : Nat := 10

/-- The draw of rules R127 and R140 for the k-th location drawn: true, the location holds the value the
pseudocode wrote; false, the value it had before the command. FREE VALUE (log 4): no body, so no proof can see
which. -/
opaque drawKeepsNew : Nat → Bool

/-- BUF_LEN at State.reset. DESIGN CHOICE (log 2): the whole index space rule R6 admits; unsafe. -/
def resetBufLen : Nat := indexBound defaultOffW - 1

/-- VALS_LEN at State.reset. DESIGN CHOICE (log 2); unsafe. -/
def resetValsLen : Nat := 64

/-- DST_LEN at State.reset. DESIGN CHOICE (log 2): the whole index space rule R6 admits; unsafe. -/
def resetDstLen : Nat := indexBound defaultOffW - 1

end Sys2Proof.Config
end

