-- ==== Sys2Proof/Syntax.lean ====
section
/-! DEFINITION. The command record CMD and the seven commands (rules R3, R65 to R68). -/

namespace Sys2Proof

/-- A command as the host presents it: the four fields of CMD, all at once (rules R65, R66). AUX and OFF are the natural numbers of
rule R10, below 2^OFF_W (`Cmd.fits`). -/
structure Cmd where
  op  : BitVec 8
  aux : Nat
  off : Nat
  val : Value
deriving DecidableEq, Repr

/-- The seven commands, each with the operands rule R67 says it uses and no other (rule R70; log 16).
Offsets, counts and indices are the natural numbers of rule R10. -/
inductive Instr where
  /-- SIZEU val (rule R87). -/
  | sizeu  (val : Value)
  /-- ENCF32 val32, off (rule R80). -/
  | encf32 (val32 : Fixed) (off : Nat)
  /-- ENCU val, off (rule R88). -/
  | encu   (val : Value) (off : Nat)
  /-- ENCUB cnt, off (rule R90). -/
  | encub  (cnt off : Nat)
  /-- SIZES val (rule R102). -/
  | sizes  (val : Value)
  /-- ENCS val, off (rule R103). -/
  | encs   (val : Value) (off : Nat)
  /-- DECS off, didx (rule R112). -/
  | decs   (off didx : Nat)
deriving DecidableEq, Repr

end Sys2Proof
end

