-- ==== Sys2Proof/WellFormed.lean ====
section
/-! DEFINITION. Which commands can be presented at all, for a given OFF_W: every offset, count and index operand fits its field
of OFF_W bits (rules R6, R10, R66). A Value operand is a pattern and always fits. -/

namespace Sys2Proof

/-- The number fits an index field of OFF_W bits (rule R10). -/
def indexFits (offW n : Nat) : Bool := decide (n < Config.indexBound offW)

/-- AUX and OFF fit their fields of CMD (rule R66). -/
def Cmd.fits (offW : Nat) (c : Cmd) : Bool := indexFits offW c.aux && indexFits offW c.off

/-- Every operand of the command fits its field of CMD (rule R66). -/
def Instr.wellFormed (offW : Nat) : Instr → Bool
  | .sizeu _ => true
  | .encf32 _ off => indexFits offW off
  | .encu _ off => indexFits offW off
  | .encub cnt off => indexFits offW cnt && indexFits offW off
  | .sizes _ => true
  | .encs _ off => indexFits offW off
  | .decs off didx => indexFits offW off && indexFits offW didx

end Sys2Proof
end

