-- ==== Sys2Proof/Decode.lean ====
section
/-! DEFINITION. From the bits of CMD to a command and back (rules R66 to R70, R72, R74). The decoder is total: each
of the 256 values of OP is one of the seven commands or is rejected by name. -/

namespace Sys2Proof

/-- Why the decoder gives no command. -/
inductive DecodeError where
  /-- OP is 0x00 or 0x08 to 0xFF (rule R69). -/
  | illegalOpcode (op : BitVec 8)
deriving DecidableEq, Repr

/-- CMD as one vector {OP, AUX, OFF, VAL} of 72 + 2 * OFF_W bits; with OFF_W = 32, OP is at bits 135:128, AUX at 127:96, OFF at
95:64, VAL at 63:0 (rule R66). -/
def Cmd.toBits (offW : Nat) (c : Cmd) : BitVec (Config.cmdWidth offW) :=
  (c.op ++ BitVec.ofNat offW c.aux ++ BitVec.ofNat offW c.off ++ c.val).cast (by rw [Config.cmdWidth]; omega)

/-- The four fields of a CMD vector (rule R66). -/
def Cmd.ofBits (offW : Nat) (w : BitVec (Config.cmdWidth offW)) : Cmd where
  op  := w.extractLsb' (64 + 2 * offW) 8
  aux := (w.extractLsb' (64 + offW) offW).toNat
  off := (w.extractLsb' 64 offW).toNat
  val := w.extractLsb' 0 64

/-- The opcode map: the whole 8-bit OP is compared; each operand is one whole field as it stands; fields a command
does not use are not looked at (rules R67 to R70, R72). -/
def decode (c : Cmd) : Except DecodeError Instr :=
  match c.op.toNat with
  | 0x01 => .ok (.sizeu c.val)
  | 0x02 => .ok (.encf32 (c.val.extractLsb' 0 32) c.off)
  | 0x03 => .ok (.encu c.val c.off)
  | 0x04 => .ok (.encub c.aux c.off)
  | 0x05 => .ok (.sizes c.val)
  | 0x06 => .ok (.encs c.val c.off)
  | 0x07 => .ok (.decs c.off c.aux)
  | _ => .error (.illegalOpcode c.op)

/-- The OP of each command (rule R68). -/
def Instr.opcode : Instr → BitVec 8
  | .sizeu _ => 0x01
  | .encf32 _ _ => 0x02
  | .encu _ _ => 0x03
  | .encub _ _ => 0x04
  | .sizes _ => 0x05
  | .encs _ _ => 0x06
  | .decs _ _ => 0x07

/-- The command record of a command; fields it does not use are assembled as zero (rule R74). -/
def encode : Instr → Cmd
  | .sizeu v => { op := 0x01, aux := 0, off := 0, val := v }
  | .encf32 w off => { op := 0x02, aux := 0, off := off, val := w.setWidth 64 }
  | .encu v off => { op := 0x03, aux := 0, off := off, val := v }
  | .encub cnt off => { op := 0x04, aux := cnt, off := off, val := 0 }
  | .sizes v => { op := 0x05, aux := 0, off := 0, val := v }
  | .encs v off => { op := 0x06, aux := 0, off := off, val := v }
  | .decs off didx => { op := 0x07, aux := didx, off := off, val := 0 }

/-- The CMD vector of a command (rules R66, R74). -/
def encodeBits (offW : Nat) (i : Instr) : BitVec (Config.cmdWidth offW) := (encode i).toBits offW

/-- What a CMD vector stands for (rules R66, R68). -/
def decodeBits (offW : Nat) (w : BitVec (Config.cmdWidth offW)) : Except DecodeError Instr := decode (Cmd.ofBits offW w)

/-- The command record whose bits, numbered as spec/opcode_table.json numbers them (bit 0 least significant, OP at
135:128: its OFF_W is the default 32), are the low `nbits` bits of `w`; every bit above them is 0. -/
def tableCommand (nbits w : Nat) : Cmd := Cmd.ofBits Config.defaultOffW (BitVec.ofNat _ (w % 2 ^ nbits))

/-- The command the decoder reads from a row of spec/opcode_table.json; none where it refuses. -/
def decodeTableWord (nbits w : Nat) : Option Instr :=
  match decode (tableCommand nbits w) with
  | .ok i => some i
  | .error _ => none

end Sys2Proof
end

