-- ==== Sys2Proof/Machine/State.lean ====
section
/-! DEFINITION. The state of the block (rule R20: S1 to S6), the launch-level state around it (rules R34, R129,
R143, R150), and its value after reset (rules R32, R33, R141). -/

namespace Sys2Proof.Machine

/-- A memory: (index, element) pairs in one canonical form (`Memory.wf`), an unlisted index reading as zero.
DESIGN CHOICE (log 3): any launch contents of rule R33 is such a list; only State.reset leans on the zero. -/
abbrev Memory (w : Nat) := List (Nat × BitVec w)

/-- The canonical form: indices strictly rising, no listed element equal to what an unlisted index reads as. -/
abbrev Memory.wf {w : Nat} (m : Memory w) : Prop :=
  m.Pairwise (fun a b => a.1 < b.1) ∧ ∀ c ∈ m, c.2 ≠ 0

/-- Every listed index lies in a container of `len` elements (rule R40). -/
abbrev Memory.within {w : Nat} (m : Memory w) (len : Nat) : Prop := ∀ c ∈ m, c.1 < len

/-- The five faults of rule R120: exactly these, each the FLT code of one FAULT response. A fault ends its command,
not the machine (rules R124, R129), so `step` and `exec` never answer `Outcome.fault`: the state with the response
is the next state (log 5). -/
inductive Fault where
  /-- Raised at decode by a command whose OP is not 0x01 to 0x07 (rule R125). Safe: no access, no change. -/
  | illegalCommand
  /-- Raised by ENCF32, ENCU, ENCUB, ENCS, DECS: a BUF access at an index not below BUF_LEN (rule R121). Safe: the
  bytes written before it are each old or new by a free draw (rule R127). -/
  | bufOutOfRange
  /-- Raised by ENCUB: a VALS read at an index not below VALS_LEN (rule R122). Safe, as `bufOutOfRange`. -/
  | srcOutOfRange
  /-- Raised by DECS: the DST write at an index not below DST_LEN (rule R123). Safe: nothing was written. -/
  | dstOutOfRange
  /-- Raised by DECS: the tenth byte of a varint has bit 7 set (rules R113, R126). Safe: nothing was written. -/
  | malformedVarint
deriving DecidableEq, Repr

/-- Why the machine stops. No command ends so: only a move of the host that the spec gives no meaning. -/
inductive Refusal where
  /-- Raised by the dispatch arm of a command without a meaning yet. Safe: the machine stops. -/
  | notModelled (mnemonic : String)
  /-- Raised by a host move that writes or attaches an element outside the container (the host's own memory has no
  such element: rules R21 to R23). Safe: the machine stops (log 14). -/
  | hostIndexOutsideContainer
  /-- Raised by a host move that issues a record whose AUX or OFF is not below 2^OFF_W, which no CMD can hold (rules R10, R66).
  Safe: the machine stops (log 14). -/
  | commandOutsideFields
  /-- Raised by a host move that attaches a container longer than 2^OFF_W - 1, which rule R6 excludes. Safe: the
  machine stops (log 14). -/
  | capacityOutsideIndexSpace
deriving DecidableEq, Repr

/-- The response of a command, of exactly one of three kinds (rules R31, R71). -/
inductive Response where
  | size (n : Nat)
  | offset (o : Nat)
  | fault (code : Fault) (index : Nat)
deriving DecidableEq, Repr

/-- The working state of a command (rule R29, S5). -/
structure Work where
  /-- the cursor: the next BUF index to access -/
  cur : Nat
  /-- what is left of the magnitude -/
  rem : Value
  /-- the zigzag-mapped value -/
  m   : Value
  /-- the decoder's accumulator -/
  acc : Value
  /-- the barrel shifter's amount for the next byte -/
  sh  : Nat
  /-- the byte last read -/
  b   : Byte
  /-- index of the element being encoded -/
  i   : Nat
  /-- count of bytes consumed -/
  n   : Nat
deriving DecidableEq, Repr

/-- Working state that does not exist, held as zeros (rule R32; DESIGN CHOICE, log 13: every command sets its working
state before it reads it, so nothing can see these). -/
def Work.none : Work := { cur := 0, rem := 0, m := 0, acc := 0, sh := 0, b := 0, i := 0, n := 0 }

/-- What the host may do (rule R150), as inputs of the model (log 7). -/
inductive HostMove where
  /-- issue a command, when the block is idle (rule R146) -/
  | issue (c : Cmd)
  /-- read the response (rule R31) -/
  | readResponse
  /-- write one byte of BUF between commands -/
  | writeBuf (i : Nat) (b : Byte)
  /-- write one element of VALS between commands -/
  | writeVals (i : Nat) (v : Value)
  /-- write one element of DST between commands -/
  | writeDst (i : Nat) (v : Value)
  /-- resize or swap BUF between commands: a container of `len` bytes with these contents, the rest zero -/
  | attachBuf (len : Nat) (contents : List (Nat × Byte))
  /-- resize or swap VALS between commands -/
  | attachVals (len : Nat) (contents : List (Nat × Value))
  /-- resize or swap DST between commands -/
  | attachDst (len : Nat) (contents : List (Nat × Value))
  /-- reset the block, at any time (rule R140) -/
  | reset
deriving DecidableEq, Repr

/-- The state. `offW` is the build's OFF_W, an argument of the model held here so that a claim may quantify over it (rules R6, R27;
log 1); no step changes it. `bufLen` to `response` are the block's own (rules R6, R20); `host` and `received` are the launch's, outside
the block (rules R34, R143); `draws` is the model's (log 4). -/
structure State where
  /-- OFF_W, a constant of the build (rules R6, R27) -/
  offW     : Nat
  /-- BUF_LEN (rule R6) -/
  bufLen   : Nat
  /-- S1, BUF (rule R21) -/
  buf      : Memory 8
  /-- VALS_LEN (rule R6) -/
  valsLen  : Nat
  /-- S2, VALS (rule R22) -/
  vals     : Memory 64
  /-- DST_LEN (rule R6) -/
  dstLen   : Nat
  /-- S3, DST (rule R23) -/
  dst      : Memory 64
  /-- S4, the command in flight; none when the block is idle (rules R24, R32) -/
  cmd      : Option Cmd
  /-- S5, the working state of the command in flight (rule R29) -/
  work     : Work
  /-- S6, the response, until the host reads it (rules R20, R31) -/
  response : Option Response
  /-- the host's coming moves, next first (rules R34, R143, R150) -/
  host     : List HostMove
  /-- the responses the host received, oldest first (rule R143) -/
  received : List Response
  /-- how many old-or-new draws were made (log 4) -/
  draws    : Nat
deriving DecidableEq, Repr

/-- The machine right after reset, at launch: idle, nothing in flight, no working state, no response (rules R32, R141,
R154 IDLE_AT_LAUNCH, NO_FAULT_RECORDED). The capacities and the contents of the memories are launch parameters (rules R6,
R33), OFF_W an argument with the default 32 (rule R6, log 1); the capacities and contents here are DESIGN CHOICES (logs 2, 3), as is the draw counter's (log 4). -/
def State.reset : State where
  offW := Config.defaultOffW
  bufLen := Config.resetBufLen
  buf := []
  valsLen := Config.resetValsLen
  vals := []
  dstLen := Config.resetDstLen
  dst := []
  cmd := none
  work := Work.none
  response := none
  host := []
  received := []
  draws := 0

end Sys2Proof.Machine
end

