-- ==== Sys2Proof/Machine/Operands.lean ====
section
/-! DEFINITION. The pure functions on operands: the bytes of the wire formats (rules R60 to R64), the length unit (rules R85,
R86), the zigzag mapper and its inverse (rules R100, R110). VAL, VAL[31:0], OFF and AUX are taken whole by the decoder
(rule R72); there is no other operand form. -/

namespace Sys2Proof.Machine

/-- A varint byte `{C, P}`: C the continuation flag, P the low 7 bits of `m` (rule R61). -/
def varintByte (c : Bool) (m : Value) : Byte := BitVec.ofBool c ++ m.extractLsb' 0 7

/-- The continuation-bit detector: bit 7 of a byte (rules R61, R111). -/
def continues (b : Byte) : Bool := b.getLsbD 7

/-- The 7-bit extractor: bits 6:0 of a byte, widened with zeros to 64 bits (rules R61, R111). -/
def payload (b : Byte) : Value := (b.extractLsb' 0 7).setWidth 64

/-- `rem[63:7] /= 0`: the magnitude does not fit in 7 bits (rules R15, R88). -/
def needsMore (rem : Value) : Bool := rem.extractLsb' 7 57 != 0

/-- The length unit: the number of bytes of the unsigned varint of `m`, by the table of rule R86 (rule R85). -/
def usize (m : Value) : Nat :=
  if m.toNat < 2 ^ 7 then 1
  else if m.toNat < 2 ^ 14 then 2
  else if m.toNat < 2 ^ 21 then 3
  else if m.toNat < 2 ^ 28 then 4
  else if m.toNat < 2 ^ 35 then 5
  else if m.toNat < 2 ^ 42 then 6
  else if m.toNat < 2 ^ 49 then 7
  else if m.toNat < 2 ^ 56 then 8
  else if m.toNat < 2 ^ 63 then 9
  else 10

/-- The zigzag mapper `(v >>s 63) ^ (v << 1)` (rule R100). -/
def zigzag (v : Value) : Value := v.sshiftRight 63 ^^^ (v <<< 1)

/-- The inverse zigzag mapper `(m >>u 1) ^ neg(m & 1)` (rule R110). -/
def unzigzag (m : Value) : Value := (m >>> 1) ^^^ (-(m &&& 1))

end Sys2Proof.Machine
end

