-- ==== Sys2Proof/Machine/Flags.lean ====
section
/-! DEFINITION. The block has no flags, condition codes or predicates (rule R26): no command sets or reads one. What a
response carries beside its value is here: the fields FLT, NOFF, SIZE and FIDX of the response record (rule R71) and the
fault codes (rule R120). A field of another kind than the one produced is unspecified (U6) and has no value here. -/

namespace Sys2Proof.Machine

/-- The code of a fault in FLT (rule R120). -/
def Fault.code : Fault → BitVec 4
  | .illegalCommand => 1
  | .bufOutOfRange => 2
  | .srcOutOfRange => 3
  | .dstOutOfRange => 4
  | .malformedVarint => 5

/-- FLT: 0 on success, else the fault's code (rule R71). -/
def Response.flt : Response → BitVec 4
  | .size _ => 0
  | .offset _ => 0
  | .fault f _ => f.code

/-- NOFF, of an OFFSET response only (rule R71). -/
def Response.noff : Response → Option Nat
  | .size _ => none
  | .offset o => some o
  | .fault _ _ => none

/-- SIZE, of a SIZE response only (rule R71). -/
def Response.sizeField : Response → Option (BitVec 4)
  | .size n => some (BitVec.ofNat 4 n)
  | .offset _ => none
  | .fault _ _ => none

/-- FIDX, of a FAULT response only (rule R71). -/
def Response.fidx : Response → Option Nat
  | .size _ => none
  | .offset _ => none
  | .fault _ x => some x

/-- The response is a FAULT. -/
def Response.isFault : Response → Bool
  | .size _ => false
  | .offset _ => false
  | .fault _ _ => true

/-- The fields hold what rule R71 lets them hold: 1 <= n <= 10, offsets and indices of OFF_W bits, and index 0 with
IllegalCommand (rule R125). -/
def Response.legal (offW : Nat) : Response → Bool
  | .size n => decide (1 ≤ n) && decide (n ≤ Config.maxVarint)
  | .offset o => indexFits offW o
  | .fault .illegalCommand x => x == 0
  | .fault _ x => indexFits offW x

/-- The launch-level fault record of rules R129 and R154: some response so far was a FAULT. It is read from the list of
responses, which no step shortens. -/
def State.faultRecorded (s : State) : Bool := s.received.any Response.isFault

end Sys2Proof.Machine
end

