-- ==== Sys2Proof/Machine/Ops.lean ====
section
/-! DEFINITION. The shared operations: the memories' read and write of one element, the four access primitives (rules R42 to R44), `respond` and the taking of a fault
(rules R11, R71, R124, R127), the cursor's byte write, and `EncodeVarint` (rule R88). -/

namespace Sys2Proof.Machine

/-- The element at an index; an unlisted index reads as zero (log 3). -/
def Memory.read {w : Nat} : Memory w → Nat → BitVec w
  | [], _ => 0
  | c :: m, i => if c.1 = i then c.2 else Memory.read m i

/-- The cell put at its place in rising order. -/
def Memory.insert {w : Nat} (c : Nat × BitVec w) : Memory w → Memory w
  | [] => [c]
  | d :: m => if c.1 < d.1 then c :: d :: m else d :: Memory.insert c m

/-- The memory with one element changed, in canonical form: a zero is not listed. -/
def Memory.write {w : Nat} (m : Memory w) (i : Nat) (v : BitVec w) : Memory w :=
  let rest := m.filter (fun c => c.1 != i)
  if v = 0 then rest else Memory.insert (i, v) rest

/-- The draw of rules R127 and R140 on the `count` indices from `lo`: each holds, by its own draw (the first is number
`d`), the value of `new` or of `old`; every other index is that of `new`. -/
def Memory.settle {w : Nat} (old new : Memory w) (d lo : Nat) : Nat → Memory w
  | 0 => new
  | k + 1 =>
    if Config.drawKeepsNew (d + k) then Memory.settle old new d lo k
    else (Memory.settle old new d lo k).write (lo + k) (old.read (lo + k))

/-- Where a piece of pseudocode stands: going on, or ended by `raise f(x)` (rule R124). Both carry the state reached. -/
inductive Flow where
  | go (s : State)
  | raise (f : Fault) (x : Nat) (s : State)
deriving DecidableEq, Repr

/-- One piece of pseudocode after another; after a `raise` no later statement runs (rule R124). -/
def Flow.andThen : Flow → (State → Flow) → Flow
  | .go s, k => k s
  | .raise f x s, _ => .raise f x s

/-- The state reached. -/
def Flow.state : Flow → State
  | .go s => s
  | .raise _ _ s => s

/-- `BufRead(i)`, the byte read landing in `b` (rule R42). -/
def bufRead (i : Nat) (s : State) : Flow :=
  if i ≥ s.bufLen then .raise .bufOutOfRange i s
  else .go { s with work := { s.work with b := s.buf.read i } }

/-- `BufWrite(i, v)` (rule R42). -/
def bufWrite (i : Nat) (v : Byte) (s : State) : Flow :=
  if i ≥ s.bufLen then .raise .bufOutOfRange i s
  else .go { s with buf := s.buf.write i v }

/-- `ValsRead(i)`, the element read landing in `rem`, where `EncodeVarint` takes its magnitude (rules R43, R88, R90). -/
def valsRead (i : Nat) (s : State) : Flow :=
  if i ≥ s.valsLen then .raise .srcOutOfRange i s
  else .go { s with work := { s.work with rem := s.vals.read i } }

/-- `DstWrite(i, v)` (rule R44). -/
def dstWrite (i : Nat) (v : Value) (s : State) : Flow :=
  if i ≥ s.dstLen then .raise .dstOutOfRange i s
  else .go { s with dst := s.dst.write i v }

/-- `cur <- cur + 1` (rule R41). -/
def advance (s : State) : Flow := .go { s with work := { s.work with cur := s.work.cur + 1 } }

/-- `BufWrite(cur, v); cur <- cur + 1`. -/
def putByte (v : Byte) (s : State) : Flow := (bufWrite s.work.cur v s).andThen advance

/-- `b <- BufRead(cur); cur <- cur + 1`. -/
def takeByte (s : State) : Flow := (bufRead s.work.cur s).andThen advance

/-- The working state at a command's start: `cur <- off`, `i <- 0`, nothing else held yet (rules R29, R30). -/
def startWork (off : Nat) (s : State) : State := { s with work := { Work.none with cur := off } }

/-- The response is produced: the command and its working state are gone, the block is idle, the host has the response
(rules R30, R31, R65, R143). -/
def respond (r : Response) (s : State) : State :=
  { s with cmd := none, work := Work.none, response := some r, received := s.received ++ [r] }

/-- A command cut short (rules R127, R140): BUF indices `lo` to `hi - 1` each hold, by a draw, what `before` held or what
the command wrote; nothing else differs from the state reached. -/
def settleBuf (before : State) (lo hi : Nat) (s : State) : State :=
  { s with buf := Memory.settle before.buf s.buf s.draws lo (hi - lo), draws := s.draws + (hi - lo) }

/-- TAKING A FAULT, the one shared operation (rules R124, R127, R129): the locations written are settled and the command's
response is FAULT(f, x); no mode, vector or saved register exists. -/
def takeFault (before : State) (lo hi : Nat) (f : Fault) (x : Nat) (s : State) : State :=
  respond (.fault f x) (settleBuf before lo hi s)

/-- The end of an encode command that started at `off` in the state `before`: OFFSET(cur), or the fault with the bytes from
`off` up to the cursor old or new (rules R71, R127). -/
def finishStores (before : State) (off : Nat) : Flow → Host.Outcome State Fault Refusal
  | .go s => .next (respond (.offset s.work.cur) s)
  | .raise f x s => .next (takeFault before off s.work.cur f x s)

/-- The end of DECS: OFFSET(cur), or the fault with no location to settle (rules R71, R127). -/
def finishLoad (before : State) : Flow → Host.Outcome State Fault Refusal
  | .go s => .next (respond (.offset s.work.cur) s)
  | .raise f x s => .next (takeFault before 0 0 f x s)

/-- An illegal command: FAULT(IllegalCommand, 0), no access, nothing to settle (rules R69, R125). -/
def illegalCommand (s : State) : State := takeFault s 0 0 .illegalCommand 0 s

/-- The loop of `EncodeVarint`, at most `k` more rounds, and its last byte (rule R88). Nine rounds are enough for any
pattern: after nine shifts only bit 63 is left. -/
def encodeLoop : Nat → State → Flow
  | 0, s => putByte (varintByte false s.work.rem) s
  | k + 1, s =>
    if needsMore s.work.rem then
      (putByte (varintByte true s.work.rem) s).andThen fun s =>
        encodeLoop k { s with work := { s.work with rem := s.work.rem >>> Config.groupW } }
    else putByte (varintByte false s.work.rem) s

/-- `EncodeVarint(rem, cur)`, with the magnitude already in `rem` (rule R88). -/
def encodeRem (s : State) : Flow := encodeLoop (Config.maxVarint - 1) s

/-- `EncodeVarint(m, cur)` (rule R88). -/
def encodeVarint (m : Value) (s : State) : Flow :=
  encodeRem { s with work := { s.work with rem := m } }

end Sys2Proof.Machine
end

