-- ==== Sys2Proof/Machine/Decoder.lean ====
section
/-! DEFINITION. The varint_decoder: DECS (rules R111 to R115). -/

namespace Sys2Proof.Machine

/-- `acc <- zext_64(b[6:0]); sh <- 7; n <- 1`, after the first byte (rule R112). -/
def firstGroup (s : State) : Flow :=
  .go { s with work := { s.work with acc := payload s.work.b, sh := Config.groupW, n := 1 } }

/-- `acc <- acc | (zext_64(b[6:0]) << sh); sh <- sh + 7; n <- n + 1`: bits past bit 63 are lost (rules R112, R114). -/
def nextGroup (s : State) : Flow :=
  .go { s with work := { s.work with
    acc := s.work.acc ||| (payload s.work.b <<< s.work.sh)
    sh := s.work.sh + Config.groupW
    n := s.work.n + 1 } }

/-- The loop of DECS, at most `k` more bytes: while the byte last read continues, raise MalformedVarint at the tenth byte,
else read the next and take its group (rules R112, R113). With `n + k = 10`, as DECS starts it, the two tests for the tenth
byte agree and no eleventh byte is read. -/
def decodeLoop : Nat → State → Flow
  | 0, s => if continues s.work.b then .raise .malformedVarint (s.work.cur - 1) s else .go s
  | k + 1, s =>
    if continues s.work.b then
      if s.work.n = Config.maxVarint then .raise .malformedVarint (s.work.cur - 1) s
      else ((takeByte s).andThen nextGroup).andThen (decodeLoop k)
    else .go s

/-- `value <- unzigzag(acc); DstWrite(DIDX, value)`; `m` holds the mapped value read (rules R29, R112). -/
def storeValue (didx : Nat) (s : State) : Flow :=
  let t : State := { s with work := { s.work with m := s.work.acc } }
  dstWrite didx (unzigzag t.work.m) t

/-- The pseudocode of DECS up to its response (rule R112). -/
def runDecs (off didx : Nat) (s : State) : Flow :=
  (((takeByte (startWork off s)).andThen firstGroup).andThen (decodeLoop (Config.maxVarint - 1))).andThen (storeValue didx)

/-- DECS (rule R112). -/
def execDecs (off didx : Nat) (s : State) : Host.Outcome State Fault Refusal :=
  finishLoad s (runDecs off didx s)

end Sys2Proof.Machine
end

