-- ==== Sys2Proof/Machine/Fixed32.lean ====
section
/-! DEFINITION. The fixed32_big_endian_packer: ENCF32 (rules R60, R80). -/

namespace Sys2Proof.Machine

/-- The pseudocode of ENCF32 up to its response (rule R80). -/
def runEncf32 (w : Fixed) (off : Nat) (s : State) : Flow :=
  (putByte (w.extractLsb' 24 8) (startWork off s)).andThen fun s =>
  (putByte (w.extractLsb' 16 8) s).andThen fun s =>
  (putByte (w.extractLsb' 8 8) s).andThen fun s =>
  putByte (w.extractLsb' 0 8) s

/-- ENCF32 (rule R80). -/
def execEncf32 (w : Fixed) (off : Nat) (s : State) : Host.Outcome State Fault Refusal :=
  finishStores s off (runEncf32 w off s)

end Sys2Proof.Machine
end

