-- ==== Sys2Proof/Machine/Signed.lean ====
section
/-! DEFINITION. The zigzag mapper in front of the encoder: SIZES, ENCS (rules R102, R103). -/

namespace Sys2Proof.Machine

/-- `m <- zigzag(v)`. -/
def mapValue (v : Value) (s : State) : State := { s with work := { s.work with m := zigzag v } }

/-- The pseudocode of SIZES: `m <- zigzag(VAL)`, then the length unit on m (rule R102). -/
def runSizes (v : Value) (s : State) : State := mapValue v (startWork 0 s)

/-- SIZES (rule R102): no access, no fault. -/
def execSizes (v : Value) (s : State) : Host.Outcome State Fault Refusal :=
  .next (respond (.size (usize (runSizes v s).work.m)) (runSizes v s))

/-- The pseudocode of ENCS up to its response: `m <- zigzag(VAL)`, then `EncodeVarint(m, OFF)` (rule R103). -/
def runEncs (v : Value) (off : Nat) (s : State) : Flow :=
  let t := mapValue v (startWork off s)
  encodeVarint t.work.m t

/-- ENCS (rule R103). -/
def execEncs (v : Value) (off : Nat) (s : State) : Host.Outcome State Fault Refusal :=
  finishStores s off (runEncs v off s)

end Sys2Proof.Machine
end

