-- ==== Sys2Proof/Machine/Unsigned.lean ====
section
/-! DEFINITION. The varint_encoder proper: SIZEU, ENCU, ENCUB (rules R87, R88, R90). -/

namespace Sys2Proof.Machine

/-- The count SIZEU responds, for any choice `neg` of U1's parameter: `usize` for bit 63 clear (rules R85, R87). -/
def sizeuCountWith (neg : Value → Nat) (v : Value) : Nat := if v.msb then neg v else usize v

/-- The count SIZEU responds: with the value rule R87 states for bit 63 set. -/
def sizeuCount (v : Value) : Nat := sizeuCountWith Config.sizeuNeg v

/-- SIZEU (rule R87): no access, no fault. -/
def execSizeu (v : Value) (s : State) : Host.Outcome State Fault Refusal :=
  .next (respond (.size (sizeuCount v)) s)

/-- The pseudocode of ENCU up to its response (rule R88). -/
def runEncu (v : Value) (off : Nat) (s : State) : Flow := encodeVarint v (startWork off s)

/-- ENCU (rule R88). -/
def execEncu (v : Value) (off : Nat) (s : State) : Host.Outcome State Fault Refusal :=
  finishStores s off (runEncu v off s)

/-- `i <- i + 1`. -/
def nextElement (s : State) : State := { s with work := { s.work with i := s.work.i + 1 } }

/-- The loop of ENCUB with `k` elements left (rule R90): read element i, encode it at the cursor, go on. -/
def encubLoop : Nat → State → Flow
  | 0, s => .go s
  | k + 1, s =>
    ((valsRead s.work.i s).andThen encodeRem).andThen fun s => encubLoop k (nextElement s)

/-- The pseudocode of ENCUB up to its response (rule R90). -/
def runEncub (cnt off : Nat) (s : State) : Flow := encubLoop cnt (startWork off s)

/-- ENCUB (rule R90). -/
def execEncub (cnt off : Nat) (s : State) : Host.Outcome State Fault Refusal :=
  finishStores s off (runEncub cnt off s)

end Sys2Proof.Machine
end

