-- ==== Sys2Proof/Machine/Dispatch.lean ====
section
/-! DEFINITION. The meaning of each of the seven commands, one arm each (rule R68). -/

namespace Sys2Proof.Machine

def exec (i : Instr) (s : State) : Host.Outcome State Fault Refusal :=
  match i with
  | .sizeu val => Sys2Proof.Machine.execSizeu val s
  | .encf32 val32 off => Sys2Proof.Machine.execEncf32 val32 off s
  | .encu val off => Sys2Proof.Machine.execEncu val off s
  | .encub cnt off => Sys2Proof.Machine.execEncub cnt off s
  | .sizes val => Sys2Proof.Machine.execSizes val s
  | .encs val off => Sys2Proof.Machine.execEncs val off s
  | .decs off didx => Sys2Proof.Machine.execDecs off didx s

end Sys2Proof.Machine
end

