-- ==== Sys2Proof/Machine/HostMoves.lean ====
section
/-! DEFINITION. The host's side: the moves rule R150 lets it make, and the block's reset (rule R140). -/

namespace Sys2Proof.Machine

/-- A container's contents, put in canonical form; where an index stands twice the first counts (log 15). -/
def Memory.ofContents {w : Nat} : List (Nat × BitVec w) → Memory w
  | [] => []
  | c :: cs => (Memory.ofContents cs).write c.1 c.2

/-- A container of `len` elements may be attached with these contents: rule R6 bounds its length, and it has no element
outside it. -/
def attachCheck {w : Nat} (offW len : Nat) (contents : List (Nat × BitVec w)) : Option Refusal :=
  if len ≥ Config.indexBound offW then some .capacityOutsideIndexSpace
  else if contents.all (fun c => decide (c.1 < len)) then none
  else some .hostIndexOutsideContainer

/-- The host's next move is a reset, which lands at once, whether or not a command is in flight (rules R140, R150; log 7). -/
def resetPending (s : State) : Bool :=
  match s.host with
  | .reset :: _ => true
  | _ => false

/-- The command's DST element after it was cut short: old or new by a draw (rule R140). -/
def settleDst (before : State) (didx : Nat) (s : State) : State :=
  { s with dst := Memory.settle before.dst s.dst s.draws didx 1, draws := s.draws + 1 }

/-- What a reset leaves of the memories when it cuts an encode command short: every BUF byte the command would have written
had it run to its end is old or new (rule R140; a command that would have faulted would have written the bytes before the
faulting one, log 18). -/
def abortStores (before : State) (off : Nat) (f : Flow) : State := settleBuf before off f.state.work.cur f.state

/-- The same for DECS: its DST element, if it would have written one (rule R140). -/
def abortLoad (before : State) (didx : Nat) : Flow → State
  | .go s => settleDst before didx s
  | .raise _ _ _ => before

/-- The memories when a reset cuts this command short (rule R140). -/
def abortInstr (s : State) : Instr → State
  | .sizeu _ => s
  | .encf32 w off => abortStores s off (runEncf32 w off s)
  | .encu v off => abortStores s off (runEncu v off s)
  | .encub cnt off => abortStores s off (runEncub cnt off s)
  | .sizes _ => s
  | .encs v off => abortStores s off (runEncs v off s)
  | .decs off didx => abortLoad s didx (runDecs off didx s)

/-- The command in flight, if there is one, is abandoned (rule R140). -/
def abortInFlight (s : State) : State :=
  match s.cmd with
  | none => s
  | some c =>
    match decode c with
    | .ok i => abortInstr s i
    | .error _ => s

/-- Reset (rules R32, R140): the command in flight is abandoned without a response, no working state and no response are
left, the block is idle; the host's own record of responses is not the block's and stays (log 19). -/
def acceptReset (s : State) : State :=
  { abortInFlight s with cmd := none, work := Work.none, response := none }

/-- Presenting a command to the idle block (rules R65, R146); an unread response is not kept (rule R31, log 12). -/
def issueCommand (c : Cmd) (s : State) : State := { s with cmd := some c, response := none }

/-- One move of the host (rule R150). All but a reset are made while the block is idle (rules R146, R147). -/
def hostMove : HostMove → State → Host.Outcome State Fault Refusal
  | .issue c, s => if c.fits s.offW then .next (issueCommand c s) else .refused .commandOutsideFields
  | .readResponse, s => .next { s with response := none }
  | .writeBuf i b, s =>
    if i < s.bufLen then .next { s with buf := s.buf.write i b } else .refused .hostIndexOutsideContainer
  | .writeVals i v, s =>
    if i < s.valsLen then .next { s with vals := s.vals.write i v } else .refused .hostIndexOutsideContainer
  | .writeDst i v, s =>
    if i < s.dstLen then .next { s with dst := s.dst.write i v } else .refused .hostIndexOutsideContainer
  | .attachBuf len cs, s =>
    match attachCheck s.offW len cs with
    | some r => .refused r
    | none => .next { s with bufLen := len, buf := Memory.ofContents cs }
  | .attachVals len cs, s =>
    match attachCheck s.offW len cs with
    | some r => .refused r
    | none => .next { s with valsLen := len, vals := Memory.ofContents cs }
  | .attachDst len cs, s =>
    match attachCheck s.offW len cs with
    | some r => .refused r
    | none => .next { s with dstLen := len, dst := Memory.ofContents cs }
  | .reset, s => .next (acceptReset s)

/-- The host's turn: its next move, or nothing (rule R141: the block does nothing until the host issues a command). -/
def hostTurn (s : State) : Host.Outcome State Fault Refusal :=
  match s.host with
  | [] => .next s
  | mv :: rest => hostMove mv { s with host := rest }

/-- The host's moves with any resets at their front taken away, so that the next step runs the command in flight. -/
def withoutLeadingResets : List HostMove → List HostMove
  | .reset :: rest => withoutLeadingResets rest
  | moves => moves

end Sys2Proof.Machine
end

