-- ==== Sys2Proof/Machine/Step.lean ====
section
/-! DEFINITION. One step. A command in flight runs whole, from its start to its response (rules R51, R65), unless the host's
next move is a reset, which cuts it short (rule R140); an idle block gives the host its turn (log 7). -/

namespace Sys2Proof.Machine

/-- The command in flight: decoded and run, or illegal (rules R68, R69). -/
def runCommand (c : Cmd) (s : State) : Host.Outcome State Fault Refusal :=
  match decode c with
  | .ok i => exec i s
  | .error _ => .next (illegalCommand s)

/-- One step of the machine. -/
def step (s : State) : Host.Outcome State Fault Refusal :=
  match s.cmd with
  | some c => if resetPending s then hostTurn s else runCommand c s
  | none => hostTurn s

/-- The state with the command of a row of spec/opcode_table.json presented to the block, so that the next step runs exactly
it (rule R65; log 11): it is the command in flight, and no reset comes first. -/
def State.withFetchWord (s : State) (nbits w : Nat) : State :=
  { s with cmd := some (tableCommand nbits w), host := withoutLeadingResets s.host }

end Sys2Proof.Machine
end

