-- ==== Sys2Proof/Safety.lean ====
section
/-! DEFINITION. What counts as a safe run, in the terms claims use: the launch premises of rule R154, the layouts of rules R60
and R62 as numbers, and the invariant that every step keeps. -/

namespace Sys2Proof.Machine

/-- IDLE_AT_LAUNCH: no command in flight, no working state, no response pending (rules R32, R154). -/
def State.Idle (s : State) : Prop := s.cmd = none ∧ s.work = Work.none ∧ s.response = none

/-- A run has not gone wrong so far: no response was a FAULT (rules R143, R154 NO_FAULT_RECORDED). -/
def State.Safe (s : State) : Prop := s.faultRecorded = false

/-- The sum of the sizes of the first `k` elements of VALS (rules R90, R94). -/
def batchSize (vals : Memory 64) : Nat → Nat
  | 0 => 0
  | k + 1 => batchSize vals k + usize (vals.read k)

/-- The `n` bytes of BUF from `off` are one varint: every byte but the last continues (rule R64), and there are at most ten
(rule R113). -/
abbrev VarintAt (buf : Memory 8) (off n : Nat) : Prop :=
  1 ≤ n ∧ n ≤ Config.maxVarint ∧ (∀ j < n - 1, continues (buf.read (off + j)) = true) ∧
    continues (buf.read (off + (n - 1))) = false

/-- The low 7 bits of a byte, as a number (rule R61). -/
def groupNat (b : Byte) : Nat := b.toNat % 2 ^ 7

/-- The payload of `n` varint bytes from `off`, group j at bit 7 j, as an unbounded number (rules R62, R112). -/
def payloadNat (buf : Memory 8) (off : Nat) : Nat → Nat
  | 0 => 0
  | n + 1 => payloadNat buf off n + groupNat (buf.read (off + n)) * 2 ^ (7 * n)

/-- Byte j of the unsigned varint of `m`, as a number: C at bit 7, group j below it (rule R62). -/
def varintLayout (m : Value) (j : Nat) : Nat :=
  (if j + 1 < usize m then 2 ^ 7 else 0) + m.toNat / 2 ^ (7 * j) % 2 ^ 7

/-- Byte j of a Fixed32, as a number, the most significant first (rule R60). -/
def fixedLayout (w : Fixed) (j : Nat) : Nat := w.toNat / 2 ^ (8 * (3 - j)) % 2 ^ 8

/-- BUF holds the unsigned varint of `m` at `off` (rule R62). -/
def HoldsVarint (buf : Memory 8) (off : Nat) (m : Value) : Prop :=
  ∀ j < usize m, (buf.read (off + j)).toNat = varintLayout m j

/-- The ten bytes from `off` lie in BUF and all continue (rule R113). -/
abbrev OverLong (s : State) (off : Nat) : Prop := off + 10 ≤ s.bufLen ∧ ∀ j < 10, continues (s.buf.read (off + j)) = true

/-- The bytes from `off` to the end of BUF, one to nine of them, all continue (rule R112). -/
abbrev RunsOut (s : State) (off : Nat) : Prop :=
  off < s.bufLen ∧ s.bufLen ≤ off + 9 ∧ ∀ j < s.bufLen - off, continues (s.buf.read (off + j)) = true

/-- Byte p of the varints of the first `k` elements of VALS, one after another, as a number (rules R62, R90). -/
def batchLayout (vals : Memory 64) : Nat → Nat → Nat
  | 0, _ => 0
  | k + 1, p =>
    if p < batchSize vals k then batchLayout vals k p else varintLayout (vals.read k) (p - batchSize vals k)

/-- The first `k` elements of VALS. -/
def firstElements (vals : Memory 64) (k : Nat) : List Value := (List.range k).map vals.read

/-- FITS: the capacity conditions of rules R94, R144 and R149, and for DECS that a whole varint lies in BUF (R142). -/
def Fits : Instr → State → Prop
  | .sizeu _, _ => True
  | .encf32 _ off, s => off + 4 ≤ s.bufLen
  | .encu v off, s => off + usize v ≤ s.bufLen
  | .encub cnt off, s => cnt ≤ s.valsLen ∧ off + batchSize s.vals cnt ≤ s.bufLen
  | .sizes _, _ => True
  | .encs v off, s => off + usize (zigzag v) ≤ s.bufLen
  | .decs off didx, s => (∃ n, VarintAt s.buf off n ∧ off + n ≤ s.bufLen) ∧ didx < s.dstLen

/-- From `s` to `t` the block answered `r`: it is idle, the response is there and recorded, and what no command writes is as it
was: the build's OFF_W, the capacities, VALS, the host's moves (rules R22, R30, R31, R150). BUF, DST and the draws are for each use to say. -/
structure Answered (r : Response) (s t : State) : Prop where
  offW : t.offW = s.offW
  cmd : t.cmd = none
  work : t.work = Work.none
  response : t.response = some r
  received : t.received = s.received ++ [r]
  bufLen : t.bufLen = s.bufLen
  valsLen : t.valsLen = s.valsLen
  vals : t.vals = s.vals
  dstLen : t.dstLen = s.dstLen
  host : t.host = s.host

/-- The command answers `r` and leaves BUF, DST and the draws as they were. -/
def AnswersOnly (i : Instr) (s : State) (r : Response) : Prop :=
  ∃ t, exec i s = .next t ∧ Answered r s t ∧ t.buf = s.buf ∧ t.dst = s.dst ∧ t.draws = s.draws

/-- The command completes: byte j of `n` stands at `off + j` of BUF, every other byte of BUF, DST and the draws are as they
were, and the response is OFFSET(off + n). -/
def StoresBytes (i : Instr) (s : State) (off n : Nat) (layout : Nat → Nat) : Prop :=
  ∃ t, exec i s = .next t ∧ Answered (.offset (off + n)) s t ∧ t.dst = s.dst ∧ t.draws = s.draws ∧
    (∀ j < n, (t.buf.read (off + j)).toNat = layout j) ∧
    ∀ a, a < off ∨ off + n ≤ a → t.buf.read a = s.buf.read a

/-- The command ends in FAULT(f, x): each byte of BUF from `off` up to `hi` is old or the one the command writes there, every
other byte and DST are as they were (rule R127). -/
def FaultsStoring (i : Instr) (s : State) (off hi : Nat) (f : Fault) (x : Nat) (layout : Nat → Nat) : Prop :=
  ∃ t, exec i s = .next t ∧ Answered (.fault f x) s t ∧ t.dst = s.dst ∧
    (∀ a, off ≤ a → a < hi → t.buf.read a = s.buf.read a ∨ (t.buf.read a).toNat = layout (a - off)) ∧
    ∀ a, a < off ∨ hi ≤ a → t.buf.read a = s.buf.read a

/-- The first index of `off`, `off + 1`, ... outside BUF (rule R121). -/
def firstOutside (s : State) (off : Nat) : Nat := if s.bufLen ≤ off then off else s.bufLen

/-- A host that issues ENCU for each value in turn, threading the offset, and stops at the first fault; the last response and
the state it leaves (rules R91, R145). -/
inductive EncuSequence : List Value → Nat → State → Response → State → Prop
  | done (off : Nat) (s : State) : EncuSequence [] off s (.offset off) s
  | more {v : Value} {vs : List Value} {off o : Nat} {s t u : State} {r : Response} :
      exec (.encu v off) s = .next t → t.response = some (.offset o) → EncuSequence vs o t r u →
      EncuSequence (v :: vs) off s r u
  | fault {v : Value} {vs : List Value} {off : Nat} {s t : State} {f : Fault} {x : Nat} :
      exec (.encu v off) s = .next t → t.response = some (.fault f x) → EncuSequence (v :: vs) off s (.fault f x) t

/-- VALUE_NONNEG: a SIZEU of the claim has VAL[63] = 0, so that the claim does not depend on decision D22 (rules R148, R154, U1). -/
def ValueNonneg : Instr → Prop
  | .sizeu v => v.getLsbD 63 = false
  | .encf32 _ _ => True
  | .encu _ _ => True
  | .encub _ _ => True
  | .sizes _ => True
  | .encs _ _ => True
  | .decs _ _ => True

/-- The OFF operand of a command that reaches BUF (rule R67). -/
def bufOperand : Instr → Option Nat
  | .sizeu _ => none
  | .encf32 _ off => some off
  | .encu _ off => some off
  | .encub _ off => some off
  | .sizes _ => none
  | .encs _ off => some off
  | .decs off _ => some off

/-- Where a command that ends with OFFSET(o) can leave its offset (rules R71, R89, R93, R104, R116, C5): past OFF, by 4 for
ENCF32 and by 1 to 10 for a varint, and inside BUF, except that an empty batch returns OFF itself. -/
def OffsetRange (s : State) (o : Nat) : Instr → Prop
  | .sizeu _ => False
  | .encf32 _ off => o = off + 4 ∧ o ≤ s.bufLen
  | .encu _ off => off < o ∧ o ≤ off + 10 ∧ o ≤ s.bufLen
  | .encub 0 off => o = off
  | .encub (cnt + 1) off => off + (cnt + 1) ≤ o ∧ o ≤ off + 10 * (cnt + 1) ∧ o ≤ s.bufLen
  | .sizes _ => False
  | .encs _ off => off < o ∧ o ≤ off + 10 ∧ o ≤ s.bufLen
  | .decs off _ => off < o ∧ o ≤ off + 10 ∧ o ≤ s.bufLen

/-- When a command can end with FAULT(f, x), and at which index (rules R120 to R123, R126). -/
def FaultMet (i : Instr) (s : State) (x : Nat) : Fault → Prop
  | .illegalCommand => False
  | .bufOutOfRange => ∃ off, bufOperand i = some off ∧ x = firstOutside s off
  | .srcOutOfRange => ∃ cnt off, i = .encub cnt off ∧ s.valsLen < cnt ∧ x = s.valsLen
  | .dstOutOfRange => ∃ off didx, i = .decs off didx ∧ s.dstLen ≤ didx ∧ x = didx ∧
      ∃ n, VarintAt s.buf off n ∧ off + n ≤ s.bufLen
  | .malformedVarint => ∃ off didx, i = .decs off didx ∧ OverLong s off ∧ x = off + 9

/-- The bytes of BUF a command may change (rules R40, R67, R90): an encoder's, from OFF up to the end of what it encodes (of a batch,
the elements that VALS holds); no other command's. -/
def MayWriteBuf (s : State) (a : Nat) : Instr → Prop
  | .sizeu _ => False
  | .encf32 _ off => off ≤ a ∧ a < off + 4
  | .encu v off => off ≤ a ∧ a < off + usize v
  | .encub cnt off => off ≤ a ∧ a < off + batchSize s.vals (min cnt s.valsLen)
  | .sizes _ => False
  | .encs v off => off ≤ a ∧ a < off + usize (zigzag v)
  | .decs _ _ => False

/-- The byte an encoder writes at index `a` of BUF, as a number (rules R60, R62, R63, R90). -/
def storedLayout (s : State) (a : Nat) : Instr → Nat
  | .sizeu _ => 0
  | .encf32 w off => fixedLayout w (a - off)
  | .encu v off => varintLayout v (a - off)
  | .encub cnt off => batchLayout s.vals (min cnt s.valsLen) (a - off)
  | .sizes _ => 0
  | .encs v off => varintLayout (zigzag v) (a - off)
  | .decs _ _ => 0

/-- The element of DST a command may change (rules R23, R40): DECS's DIDX. -/
def MayWriteDst (a : Nat) : Instr → Prop
  | .decs _ didx => a = didx
  | .sizeu _ => False
  | .encf32 _ _ => False
  | .encu _ _ => False
  | .encub _ _ => False
  | .sizes _ => False
  | .encs _ _ => False

/-- Two states alike in the memories (rule R30): their capacities and contents. The command slot, the working state, the responses,
the host's moves, the draws and even the build's OFF_W may differ. -/
def SameMemories (s s' : State) : Prop :=
  s'.bufLen = s.bufLen ∧ s'.buf = s.buf ∧ s'.valsLen = s.valsLen ∧ s'.vals = s.vals ∧ s'.dstLen = s.dstLen ∧ s'.dst = s.dst

/-- What every step keeps: the memories in canonical form and inside their capacities, the capacities inside the index space
(rule R6, CAPACITIES_FIXED), the command in flight inside its fields (rule R66), no working state between steps (rule R30), and only responses rule R71 allows. -/
structure State.Inv (s : State) : Prop where
  bufWf : s.buf.wf
  bufWithin : s.buf.within s.bufLen
  bufLen_lt : s.bufLen < Config.indexBound s.offW
  valsWf : s.vals.wf
  valsWithin : s.vals.within s.valsLen
  valsLen_lt : s.valsLen < Config.indexBound s.offW
  dstWf : s.dst.wf
  dstWithin : s.dst.within s.dstLen
  dstLen_lt : s.dstLen < Config.indexBound s.offW
  cmdFits : ∀ c, s.cmd = some c → c.fits s.offW = true
  workNone : s.work = Work.none
  responseLegal : ∀ r, s.response = some r → r.legal s.offW = true
  receivedLegal : ∀ r ∈ s.received, r.legal s.offW = true

end Sys2Proof.Machine
end

