-- ==== Sys2Proof/Certificates/Slice0/Obligations.lean ====
section
/-! DEFINITION. The statements for the provers, each from the numbered rules its docstring names. -/

open Sys2Proof Sys2Proof.Machine

/-! ## Encoding -/

/-- The CMD vectors that 95_test_vectors.md prints, at the default OFF_W = 32, decode to the commands it prints beside them (TI6, TF8,
TV8, TB2, section 5, P1 line 5 and P2 line 6 of section 8, and the illegal TI1, TI2, TI3 and TI4, whose OP is ENCU's with bit 7 set). -/
def Obligations.SpecWordsDecode : Prop :=
  decodeBits 32 0x01FFFFFFFFFFFFFFFF000000000000007F#136 = .ok (.sizeu 127) ∧
  decodeBits 32 0x02000000000000000CDEADBEEFCAFEF00D#136 = .ok (.encf32 0xCAFEF00D 12) ∧
  decodeBits 32 0x030000000000000007000000000000012C#136 = .ok (.encu 300 7) ∧
  decodeBits 32 0x0400000002000000000000000000000000#136 = .ok (.encub 2 0) ∧
  decodeBits 32 0x050000000000000000FFFFFFFFFFFFFFBF#136 = .ok (.sizes (-65)) ∧
  decodeBits 32 0x060000000000000006FFFFFFFFFFFFFF6A#136 = .ok (.encs (-150) 6) ∧
  decodeBits 32 0x07000000020000000B0000000000000000#136 = .ok (.decs 11 2) ∧
  decodeBits 32 0x0000000000000000000000000000000000#136 = .error (.illegalOpcode 0x00) ∧
  decodeBits 32 0x0800000000000000000000000000000000#136 = .error (.illegalOpcode 0x08) ∧
  decodeBits 32 0xFFFFFFFFFFFFFFFFFFFFFFFFFFFFFFFFFF#136 = .error (.illegalOpcode 0xFF) ∧
  decodeBits 32 0x830000000000000000000000000000012C#136 = .error (.illegalOpcode 0x83)

/-- For every OFF_W, every well-formed command, with every operand at every value its field admits, is read back from its CMD vector
(rules R6, R66, R68, R72, R74). -/
def Obligations.DecodeEncodeRoundTrip : Prop :=
  ∀ (offW : Nat) (i : Instr), i.wellFormed offW = true → decodeBits offW (encodeBits offW i) = .ok i

/-- For every OFF_W, CMD is the vector {OP, AUX, OFF, VAL} of 72 + 2 * OFF_W bits: as a number each field at its place, VAL at bits 63:0,
and nothing lost either way; unpacking always gives fields of OFF_W bits (rules R6, R66). -/
def Obligations.CommandRecordIsBitVector : Prop :=
  ∀ offW : Nat,
    (∀ c : Cmd, c.fits offW = true → (c.toBits offW).toNat =
      c.op.toNat * 2 ^ (64 + 2 * offW) + c.aux * 2 ^ (64 + offW) + c.off * 2 ^ 64 + c.val.toNat) ∧
    (∀ c : Cmd, c.fits offW = true → Cmd.ofBits offW (c.toBits offW) = c) ∧
    ∀ w : BitVec (72 + 2 * offW), (Cmd.ofBits offW w).fits offW = true ∧ (Cmd.ofBits offW w).toBits offW = w

/-- The opcode map (rule R68): OP 0x01 to 0x07 select the seven commands, every other OP is illegal. -/
def Obligations.OpcodeMapDecodes : Prop :=
  ∀ c : Cmd,
    (c.op = 0x01#8 → decode c = .ok (.sizeu c.val)) ∧
    (c.op = 0x02#8 → decode c = .ok (.encf32 (c.val.setWidth 32) c.off)) ∧
    (c.op = 0x03#8 → decode c = .ok (.encu c.val c.off)) ∧
    (c.op = 0x04#8 → decode c = .ok (.encub c.aux c.off)) ∧
    (c.op = 0x05#8 → decode c = .ok (.sizes c.val)) ∧
    (c.op = 0x06#8 → decode c = .ok (.encs c.val c.off)) ∧
    (c.op = 0x07#8 → decode c = .ok (.decs c.off c.aux)) ∧
    (c.op = 0x00#8 ∨ 0x08 ≤ c.op.toNat → decode c = .error (.illegalOpcode c.op))

/-- A field a command does not use is ignored (rule R70): whatever stands in it, the machine does the same. -/
def Obligations.UnusedFieldsChangeNothing : Prop :=
  ∀ (c : Cmd) (aux off : Nat) (hi : BitVec 32) (val : Value) (s : State),
    (c.op = 0x01#8 ∨ c.op = 0x05#8 → runCommand { c with aux := aux, off := off } s = runCommand c s) ∧
    (c.op = 0x02#8 → runCommand { c with aux := aux, val := hi ++ c.val.setWidth 32 } s = runCommand c s) ∧
    (c.op = 0x03#8 ∨ c.op = 0x06#8 → runCommand { c with aux := aux } s = runCommand c s) ∧
    (c.op = 0x04#8 ∨ c.op = 0x07#8 → runCommand { c with val := val } s = runCommand c s)

/-- What the decoder gives keeps the OP and encodes to a record that decodes to it again; from a record whose fields hold its operands
it is well-formed, and so is what its CMD vector stands for, for every OFF_W (rules R10, R66, R68). -/
def Obligations.DecodedCommandIsWellFormed : Prop :=
  ∀ (c : Cmd) (i : Instr), decode c = .ok i →
    (encode i).op = c.op ∧ i.opcode = c.op ∧ decode (encode i) = .ok i ∧
    ∀ offW : Nat, c.fits offW = true → i.wellFormed offW = true ∧ (encode i).fits offW = true ∧
      decodeBits offW (c.toBits offW) = .ok i

/-! ## The step -/

/-- A step runs the decoded command: with a command in flight that decodes to i, and no reset landing now, the step is exec of i;
so too after `withFetchWord` (rules R51, R65; the precedence of a reset is the model's, log 7). -/
def Obligations.StepRunsDecodedCommand : Prop :=
  (∀ (s : State) (c : Cmd) (i : Instr), s.cmd = some c → resetPending s = false → decode c = .ok i →
    step s = exec i s) ∧
  ∀ (s : State) (nbits w : Nat) (i : Instr), decodeTableWord nbits w = some i →
    step (s.withFetchWord nbits w) = exec i (s.withFetchWord nbits w)

/-- An illegal command makes no access, changes no memory, and responds FAULT(IllegalCommand, 0), whatever its other fields
(rule R125). -/
def Obligations.IllegalCommandFaults : Prop :=
  ∀ (s : State) (c : Cmd), s.cmd = some c → resetPending s = false → c.op = 0x00#8 ∨ 0x08 ≤ c.op.toNat →
    ∃ t, step s = .next t ∧ Answered (.fault .illegalCommand 0) s t ∧ t.buf = s.buf ∧ t.dst = s.dst ∧ t.draws = s.draws

/-- An idle block does nothing until the host issues a command, and then holds that command and changes nothing else but the
unread response (rules R141, R146; log 12). -/
def Obligations.IdleBlockWaitsForTheHost : Prop :=
  (∀ s : State, s.cmd = none → s.host = [] → step s = .next s) ∧
  ∀ (s : State) (c : Cmd) (rest : List HostMove), s.cmd = none → s.host = .issue c :: rest → c.fits s.offW = true →
    step s = .next { s with cmd := some c, response := none, host := rest }

/-- Every command in flight ends, in one step, with exactly one response (rules R31, R65, R153). -/
def Obligations.EveryCommandAnswersOnce : Prop :=
  ∀ (s : State) (c : Cmd), s.cmd = some c → resetPending s = false → ∃ t r, step s = .next t ∧ Answered r s t

/-- No command stops the machine, and a step is refused only for a host move that names an element outside its container, a capacity
outside the index space, or a record that no CMD can hold (rules R129, R6, R66; log 14). -/
def Obligations.OnlyHostMovesAreRefused : Prop :=
  (∀ (i : Instr) (s : State), ∃ t, exec i s = .next t) ∧
  (∀ (s : State) (f : Fault), step s ≠ .fault f) ∧
  ∀ (s : State) (r : Refusal), step s = .refused r →
    s.cmd = none ∧ s.host ≠ [] ∧ (r = .hostIndexOutsideContainer ∨ r = .capacityOutsideIndexSpace ∨ r = .commandOutsideFields)

/-! ## The commands -/

/-- SIZEU (rule R87), in every state: OP 0x01 with any OFF and AUX; it answers usize of the pattern, 10 when bit 63 is set and 1 to
9 when it is clear, and changes nothing; zero takes 1, and each 2^(7k) is the first value of size k + 1. -/
def Obligations.SizeuAnswers : Prop :=
  (∀ c : Cmd, c.op = 0x01#8 → decode c = .ok (.sizeu c.val)) ∧
  (∀ (v : Value) (s : State), AnswersOnly (.sizeu v) s (.size (usize v)) ∧
    (v.getLsbD 63 = true → AnswersOnly (.sizeu v) s (.size 10)) ∧
    (v.getLsbD 63 = false → 1 ≤ usize v ∧ usize v ≤ 9)) ∧
  usize 0 = 1 ∧
  ∀ k, 1 ≤ k → k ≤ 9 → usize (BitVec.ofNat 64 (2 ^ (7 * k))) = k + 1 ∧ usize (BitVec.ofNat 64 (2 ^ (7 * k) - 1)) = k

/-- SIZEU under the launch premise VALUE_NONNEG (rules R148, R154, U1): whatever value U1's parameter takes, the count is usize of the
pattern, 1 to 9, and it is what SIZEU answers; so a claim that takes the premise does not depend on decision D22. -/
def Obligations.SizeuUnderValueNonneg : Prop :=
  ∀ (v : Value) (s : State), ValueNonneg (.sizeu v) → ∀ neg : Value → Nat,
    AnswersOnly (.sizeu v) s (.size (sizeuCountWith neg v)) ∧ sizeuCountWith neg v = usize v ∧ 1 ≤ usize v ∧ usize v ≤ 9 ∧
    v.toNat < 2 ^ 63 ∧ 0 ≤ v.toInt

/-- SIZES (rule R102): OP 0x05 with any OFF and AUX; usize of the mapped value, 10 exactly when s64(VAL) >= 2^62 or s64(VAL) < -2^62; no memory, no fault. -/
def Obligations.SizesAnswers : Prop :=
  (∀ c : Cmd, c.op = 0x05#8 → decode c = .ok (.sizes c.val)) ∧
  ∀ (v : Value) (s : State), AnswersOnly (.sizes v) s (.size (usize (zigzag v))) ∧
    (1 ≤ usize (zigzag v) ∧ usize (zigzag v) ≤ 10) ∧
    (usize (zigzag v) = 10 ↔ (zigzag v).getLsbD 63 = true) ∧
    (usize (zigzag v) = 10 ↔ (2 : Int) ^ 62 ≤ v.toInt ∨ v.toInt < -2 ^ 62)

/-- ENCF32 (rule R80): OP 0x02, VAL[31:0] and OFF, the rest ignored; four bytes, the most significant first, and OFFSET(OFF + 4); or BufOutOfRange at the first index outside BUF
with the bytes below it old or new. -/
def Obligations.Encf32PacksBigEndian : Prop :=
  (∀ c : Cmd, c.op = 0x02#8 → decode c = .ok (.encf32 (c.val.setWidth 32) c.off)) ∧
  ∀ (w : Fixed) (off : Nat) (s : State),
    (off + 4 ≤ s.bufLen → StoresBytes (.encf32 w off) s off 4 (fixedLayout w)) ∧
    (s.bufLen < off + 4 → FaultsStoring (.encf32 w off) s off s.bufLen .bufOutOfRange (firstOutside s off) (fixedLayout w))

/-- ENCU (rule R88): OP 0x03, VAL and OFF, AUX ignored; the unsigned varint of VAL, least significant group first, and OFFSET past it; 10 bytes ending in 01 for a
pattern with bit 63 set; or BufOutOfRange at the first index outside BUF with the bytes below it old or new. -/
def Obligations.EncuWritesVarint : Prop :=
  (∀ c : Cmd, c.op = 0x03#8 → decode c = .ok (.encu c.val c.off)) ∧
  ∀ (v : Value) (off : Nat) (s : State),
    (off + usize v ≤ s.bufLen → StoresBytes (.encu v off) s off (usize v) (varintLayout v)) ∧
    (s.bufLen < off + usize v →
      FaultsStoring (.encu v off) s off s.bufLen .bufOutOfRange (firstOutside s off) (varintLayout v)) ∧
    (1 ≤ usize v ∧ usize v ≤ 10) ∧ (v.getLsbD 63 = true → usize v = 10 ∧ varintLayout v 9 = 1)

/-- ENCUB (rules R90, R93, R127, R128): the varints of the first CNT elements of VALS one after another; or SrcOutOfRange(VALS_LEN)
when all elements VALS holds fit and CNT asks for more; or BufOutOfRange at the first byte that does not fit. An empty batch
succeeds at any OFF. -/
def Obligations.EncubWritesBatch : Prop :=
  ∀ (cnt off : Nat) (s : State),
    (cnt ≤ s.valsLen → cnt = 0 ∨ off + batchSize s.vals cnt ≤ s.bufLen →
      StoresBytes (.encub cnt off) s off (batchSize s.vals cnt) (batchLayout s.vals cnt)) ∧
    (s.valsLen < cnt → s.valsLen = 0 ∨ off + batchSize s.vals s.valsLen ≤ s.bufLen →
      FaultsStoring (.encub cnt off) s off (off + batchSize s.vals s.valsLen) .srcOutOfRange s.valsLen
        (batchLayout s.vals s.valsLen)) ∧
    (0 < min cnt s.valsLen → s.bufLen < off + batchSize s.vals (min cnt s.valsLen) →
      FaultsStoring (.encub cnt off) s off s.bufLen .bufOutOfRange (firstOutside s off)
        (batchLayout s.vals (min cnt s.valsLen)))

/-- ENCS (rule R103): OP 0x06, VAL and OFF, AUX ignored; the unsigned varint of zigzag(VAL), or BufOutOfRange as for ENCU. -/
def Obligations.EncsWritesMappedVarint : Prop :=
  (∀ c : Cmd, c.op = 0x06#8 → decode c = .ok (.encs c.val c.off)) ∧
  ∀ (v : Value) (off : Nat) (s : State),
    (off + usize (zigzag v) ≤ s.bufLen →
      StoresBytes (.encs v off) s off (usize (zigzag v)) (varintLayout (zigzag v))) ∧
    (s.bufLen < off + usize (zigzag v) →
      FaultsStoring (.encs v off) s off s.bufLen .bufOutOfRange (firstOutside s off) (varintLayout (zigzag v)))

/-- DECS completes (rules R112, R114, R115): with a varint of n bytes at OFF inside BUF and DIDX inside DST, the Value of its payload
(64 bits of it) is the one element of DST that changes, nothing else does, and the response is OFFSET(OFF + n). -/
def Obligations.DecsReadsVarint : Prop :=
  ∀ (off didx n : Nat) (s : State), VarintAt s.buf off n → off + n ≤ s.bufLen → didx < s.dstLen →
    ∃ t, exec (.decs off didx) s = .next t ∧ Answered (.offset (off + n)) s t ∧ t.buf = s.buf ∧ t.draws = s.draws ∧
      t.dst.read didx = unzigzag (BitVec.ofNat 64 (payloadNat s.buf off n)) ∧
      ∀ a, a ≠ didx → t.dst.read a = s.dst.read a

/-- DECS faults (rules R112, R113, R123, R126, R128), each leaving every memory as it was: OFF outside BUF; ten continued bytes; the
end of BUF met first; the varint whole but DIDX outside DST. -/
def Obligations.DecsFaultsChangeNothing : Prop :=
  ∀ (off didx : Nat) (s : State),
    (s.bufLen ≤ off → AnswersOnly (.decs off didx) s (.fault .bufOutOfRange off)) ∧
    (OverLong s off → AnswersOnly (.decs off didx) s (.fault .malformedVarint (off + 9))) ∧
    (RunsOut s off → AnswersOnly (.decs off didx) s (.fault .bufOutOfRange s.bufLen)) ∧
    ∀ n, VarintAt s.buf off n → off + n ≤ s.bufLen → s.dstLen ≤ didx →
      AnswersOnly (.decs off didx) s (.fault .dstOutOfRange didx)

/-! ## The pure functions -/

/-- The length unit by its thresholds and by the position of the highest set bit (rule R85). -/
def Obligations.UsizeMatchesThresholds : Prop :=
  ∀ m : Value,
    (m.toNat < 2 ^ 7 → usize m = 1) ∧
    (∀ k, 2 ≤ k → k ≤ 9 → 2 ^ (7 * (k - 1)) ≤ m.toNat → m.toNat < 2 ^ (7 * k) → usize m = k) ∧
    (2 ^ 63 ≤ m.toNat → usize m = 10) ∧
    usize m = if m.toNat = 0 then 1 else (Nat.log2 m.toNat + 1 + 6) / 7

/-- zigzag by its formula, bit by bit and in numbers (rule R100). -/
def Obligations.ZigzagBitsAndNumbers : Prop :=
  ∀ v : Value,
    zigzag v = v.sshiftRight 63 ^^^ (v <<< 1) ∧
    (zigzag v).getLsbD 0 = v.getLsbD 63 ∧
    (∀ i, 1 ≤ i → i ≤ 63 → (zigzag v).getLsbD i = (v.getLsbD (i - 1) ^^ v.getLsbD 63)) ∧
    (0 ≤ v.toInt → ((zigzag v).toNat : Int) = 2 * v.toInt) ∧
    (v.toInt < 0 → ((zigzag v).toNat : Int) = -2 * v.toInt - 1)

/-- unzigzag by its formula, bit by bit and in numbers, and that each of the two mappings undoes the other (rule R110). -/
def Obligations.UnzigzagInvertsZigzag : Prop :=
  ∀ m : Value,
    unzigzag m = (m >>> 1) ^^^ -(m &&& 1) ∧
    (unzigzag m).getLsbD 63 = m.getLsbD 0 ∧
    (∀ i, i ≤ 62 → (unzigzag m).getLsbD i = (m.getLsbD (i + 1) ^^ m.getLsbD 0)) ∧
    (m.toNat % 2 = 0 → (unzigzag m).toInt = (m.toNat : Int) / 2) ∧
    (m.toNat % 2 = 1 → (unzigzag m).toInt = -(((m.toNat : Int) + 1) / 2)) ∧
    unzigzag (zigzag m) = m ∧ zigzag (unzigzag m) = m

/-- What SIZES answers, by signed range (rule R105): n bytes or fewer exactly for -2^(7n-1) <= s64(v) <= 2^(7n-1) - 1, for n up to 9;
never more than 10. -/
def Obligations.SignedSizeRanges : Prop :=
  ∀ (v : Value) (s : State), ∃ k, AnswersOnly (.sizes v) s (.size k) ∧ 1 ≤ k ∧ k ≤ 10 ∧
    ∀ n, 1 ≤ n → n ≤ 9 → (k ≤ n ↔ -(2 : Int) ^ (7 * n - 1) ≤ v.toInt ∧ v.toInt ≤ 2 ^ (7 * n - 1) - 1)

/-! ## Laws between commands -/

/-- ENCF32's bytes read back as the big-endian number they encode (rule R81). -/
def Obligations.Encf32ReadsBackBigEndian : Prop :=
  ∀ (w : Fixed) (off : Nat) (s t : State), off + 4 ≤ s.bufLen → exec (.encf32 w off) s = .next t →
    t.buf.read off ++ t.buf.read (off + 1) ++ t.buf.read (off + 2) ++ t.buf.read (off + 3) = w

/-- What ENCU wrote is the shortest form: every byte but the last has bit 7 set, and the last of two or more is not 00 (rule R89
items 3 and 4). -/
def Obligations.EncuWritesShortestForm : Prop :=
  ∀ (v : Value) (off o : Nat) (s t : State), exec (.encu v off) s = .next t → t.response = some (.offset o) →
    VarintAt t.buf off (o - off) ∧ (off + 2 ≤ o → t.buf.read (o - 1) ≠ 0) ∧
    (o = off + 1 → t.buf.read off = v.setWidth 8 ∧ v.toNat < 2 ^ 7)

/-- ENCS is ENCU of the mapped value, and SIZES is SIZEU of it, in every state, faults and all (rule R104 item 1; that
after a fault the two leave the same bytes old and the same bytes new is the model's draws, log 4). -/
def Obligations.EncsIsEncuOfMapped : Prop :=
  ∀ (v : Value) (off : Nat) (s : State),
    exec (.encs v off) s = exec (.encu (zigzag v) off) s ∧ exec (.sizes v) s = exec (.sizeu (zigzag v)) s

/-- The batch equals the single commands in sequence (rule R91): with CNT <= VALS_LEN, both succeed with the same bytes and the same
offset, or both fault with BufOutOfRange at the same index. -/
def Obligations.BatchEqualsSequence : Prop :=
  ∀ (cnt off : Nat) (s : State), cnt ≤ s.valsLen →
    ∃ t r, exec (.encub cnt off) s = .next t ∧ t.response = some r ∧
      (∃ u, EncuSequence (firstElements s.vals cnt) off s r u) ∧
      ∀ r' u, EncuSequence (firstElements s.vals cnt) off s r' u →
        r' = r ∧ (r.isFault = false → ∀ a, u.buf.read a = t.buf.read a) ∧
          (r.isFault = true → r = .fault .bufOutOfRange (firstOutside s off))

/-- The signed round trip (rules R104 item 3, R116 item 2): after a successful ENCS of v at OFF, in any state that holds those bytes,
DECS at OFF with DIDX inside DST succeeds with the same end offset and leaves v in DST. -/
def Obligations.SignedRoundTrip : Prop :=
  ∀ (v : Value) (off e didx : Nat) (s t u : State), exec (.encs v off) s = .next t → t.response = some (.offset e) →
    (∀ a, off ≤ a → a < e → u.buf.read a = t.buf.read a) → e ≤ u.bufLen → didx < u.dstLen →
    ∃ r, exec (.decs off didx) u = .next r ∧ r.response = some (.offset e) ∧ r.dst.read didx = v

/-- DECS of what ENCU wrote gives unzigzag of the number, not the number (rule R116 items 1 and 4). -/
def Obligations.DecsOfUnsignedOutput : Prop :=
  ∀ (v : Value) (off e didx : Nat) (s t u : State), exec (.encu v off) s = .next t → t.response = some (.offset e) →
    (∀ a, off ≤ a → a < e → u.buf.read a = t.buf.read a) → e ≤ u.bufLen → didx < u.dstLen →
    ∃ r, exec (.decs off didx) u = .next r ∧ r.response = some (.offset e) ∧ r.dst.read didx = unzigzag v

/-- Only bit 0 of a tenth byte counts, and a last byte with other payload bits is no fault (rule R114): two buffers alike in the first
nine bytes, whose tenth bytes end the varint and agree in bit 0, decode to the same Value. -/
def Obligations.TenthByteKeepsOneBit : Prop :=
  ∀ (off didx : Nat) (s s' : State), VarintAt s.buf off 10 → VarintAt s'.buf off 10 →
    off + 10 ≤ s.bufLen → off + 10 ≤ s'.bufLen → didx < s.dstLen → didx < s'.dstLen →
    (∀ j < 9, s'.buf.read (off + j) = s.buf.read (off + j)) →
    (s'.buf.read (off + 9)).getLsbD 0 = (s.buf.read (off + 9)).getLsbD 0 →
    ∃ t t', exec (.decs off didx) s = .next t ∧ exec (.decs off didx) s' = .next t' ∧
      t.response = some (.offset (off + 10)) ∧ t'.response = some (.offset (off + 10)) ∧
      t'.dst.read didx = t.dst.read didx

/-- A command whose capacity conditions hold does not fault (rules R94, R144, R149). -/
def Obligations.FitsNeverFaults : Prop :=
  ∀ (i : Instr) (s : State), Fits i s →
    ∃ t r, exec i s = .next t ∧ t.response = some r ∧ r.isFault = false ∧ Answered r s t

/-! ## The whole machine -/

/-- Every OFFSET a command gives lies past OFF, by its own amount, and inside BUF, but for the empty batch (rules R71, R89, R93,
R104, R116). -/
def Obligations.OffsetsMoveForwardInsideBuf : Prop :=
  ∀ (i : Instr) (s t : State) (o : Nat), exec i s = .next t → t.response = some (.offset o) → OffsetRange s o i

/-- Every fault of a command reports what it met (rules R120 to R123, R126). -/
def Obligations.FaultsReportWhatTheyMet : Prop :=
  ∀ (i : Instr) (s t : State) (f : Fault) (x : Nat), exec i s = .next t → t.response = some (.fault f x) →
    FaultMet i s x f

/-- What no command writes (rules R21 to R23, R27, R40, R90, R124): VALS, the capacities and OFF_W never; DST only by DECS at DIDX; BUF
only by an encoder, from OFF up to the end of what it encodes, inside BUF. -/
def Obligations.CommandsWriteOnlyTheirOwn : Prop :=
  ∀ (i : Instr) (s t : State), exec i s = .next t →
    t.vals = s.vals ∧ t.bufLen = s.bufLen ∧ t.valsLen = s.valsLen ∧ t.dstLen = s.dstLen ∧ t.offW = s.offW ∧ t.host = s.host ∧
    (∀ a, ¬ (MayWriteBuf s a i ∧ a < s.bufLen) → t.buf.read a = s.buf.read a) ∧
    ∀ a, ¬ (MayWriteDst a i ∧ a < s.dstLen) → t.dst.read a = s.dst.read a

/-- What no command reads (rules R21 to R23, R67, R90, R112, R116 item 5): ENCUB no element of VALS from CNT on, and the other commands
none; DECS no byte of BUF but the ten from OFF that lie in it; the other commands no byte of BUF, and no command an element of
DST: with other contents there the whole outcome is the same, but that what the command does not write keeps those contents.
After a fault of an encoder this rests on the model's draws (log 4): both runs start from one draw counter and so draw the same bytes old
and the same bytes new, where R127 leaves each byte open. -/
def Obligations.CommandsReadOnlyTheirOwn : Prop :=
  (∀ (cnt off : Nat) (vals' : Memory 64) (s t : State), (∀ a < cnt, vals'.read a = s.vals.read a) →
    exec (.encub cnt off) s = .next t → exec (.encub cnt off) { s with vals := vals' } = .next { t with vals := vals' }) ∧
  (∀ (i : Instr) (vals' : Memory 64) (s t : State), (∀ cnt off, i ≠ .encub cnt off) →
    exec i s = .next t → exec i { s with vals := vals' } = .next { t with vals := vals' }) ∧
  (∀ (off didx : Nat) (buf' : Memory 8) (s t : State),
    (∀ j < 10, off + j < s.bufLen → buf'.read (off + j) = s.buf.read (off + j)) →
    exec (.decs off didx) s = .next t → exec (.decs off didx) { s with buf := buf' } = .next { t with buf := buf' }) ∧
  (∀ (i : Instr) (buf' : Memory 8) (s t : State) (r : Response), (∀ off didx, i ≠ .decs off didx) →
    exec i s = .next t → t.response = some r →
    ∃ m, exec i { s with buf := buf' } = .next { t with buf := m } ∧
      (∀ a, m.read a = t.buf.read a ∨ m.read a = buf'.read a ∧ t.buf.read a = s.buf.read a) ∧
      (∀ a, ¬ MayWriteBuf s a i → m.read a = buf'.read a) ∧
      (r.isFault = false → ∀ a, MayWriteBuf s a i → m.read a = t.buf.read a)) ∧
  ∀ (i : Instr) (dst' : Memory 64) (s t : State) (r : Response), exec i s = .next t → t.response = some r →
    ∃ m, exec i { s with dst := dst' } = .next { t with dst := m } ∧
      (∀ a, ¬ (MayWriteDst a i ∧ r.isFault = false) → m.read a = dst'.read a) ∧
      (r.isFault = false → ∀ a, MayWriteDst a i → m.read a = t.dst.read a)

/-- Nothing survives a command (rule R30): what it answers, and what it leaves in the memories when it does not fault, depends on its
operands and on the memories alone, not on what ran before. After a fault the bytes of rule R127 are old or new by the model's draws,
so there the memories agree when the draw counters do (the counter is the model's choice, log 4). No working state is left, which the
model holds as zeros (log 13). -/
def Obligations.NothingSurvivesACommand : Prop :=
  ∀ (i : Instr) (s s' t t' : State), SameMemories s s' → exec i s = .next t → exec i s' = .next t' →
    t'.response = t.response ∧ t.cmd = none ∧ t'.cmd = none ∧ t.work = Work.none ∧ t'.work = Work.none ∧
    (∀ r, t.response = some r → r.isFault = false → SameMemories t t') ∧
    (s'.draws = s.draws → SameMemories t t' ∧ t'.draws = t.draws)

/-- Repeating a command that did not fault gives the same response and the same memories (rule R48). -/
def Obligations.RepeatingACommandChangesNothing : Prop :=
  ∀ (i : Instr) (s t u : State) (r : Response), exec i s = .next t → t.response = some r → r.isFault = false →
    exec i t = .next u → u.response = some r ∧ (∀ a, u.buf.read a = t.buf.read a) ∧ ∀ a, u.dst.read a = t.dst.read a

/-- The access primitives (rules R42 to R44): outside the container they raise the fault with the index and change nothing; inside,
a read changes no state but the working register it lands in, and a write changes exactly one element. -/
def Obligations.AccessPrimitivesCheckTheRange : Prop :=
  ∀ (i : Nat) (b : Byte) (v : Value) (s : State),
    (s.bufLen ≤ i → bufRead i s = .raise .bufOutOfRange i s ∧ bufWrite i b s = .raise .bufOutOfRange i s) ∧
    (s.valsLen ≤ i → valsRead i s = .raise .srcOutOfRange i s) ∧
    (s.dstLen ≤ i → dstWrite i v s = .raise .dstOutOfRange i s) ∧
    (i < s.bufLen → bufRead i s = .go { s with work := { s.work with b := s.buf.read i } }) ∧
    (i < s.valsLen → valsRead i s = .go { s with work := { s.work with rem := s.vals.read i } }) ∧
    (i < s.bufLen → ∃ m, bufWrite i b s = .go { s with buf := m } ∧ m.read i = b ∧ ∀ a, a ≠ i → m.read a = s.buf.read a) ∧
    (i < s.dstLen → ∃ m, dstWrite i v s = .go { s with dst := m } ∧ m.read i = v ∧ ∀ a, a ≠ i → m.read a = s.dst.read a)

/-- The response record (rules R71, R120): FLT is 0 but for a fault, whose five codes are 1 to 5; the field of the produced kind holds
its value, in 4 bits for a size up to 10; no other field has one. -/
def Obligations.ResponseRecordMatchesKind : Prop :=
  (∀ n, (Response.size n).flt = 0#4 ∧ (Response.size n).noff = none ∧ (Response.size n).fidx = none ∧
    ∃ b, (Response.size n).sizeField = some b ∧ (n ≤ 10 → b.toNat = n)) ∧
  (∀ o, (Response.offset o).flt = 0#4 ∧ (Response.offset o).noff = some o ∧ (Response.offset o).sizeField = none ∧
    (Response.offset o).fidx = none) ∧
  (∀ f x, (Response.fault f x).flt = f.code ∧ (Response.fault f x).fidx = some x ∧ (Response.fault f x).noff = none ∧
    (Response.fault f x).sizeField = none) ∧
  Fault.illegalCommand.code = 1#4 ∧ Fault.bufOutOfRange.code = 2#4 ∧ Fault.srcOutOfRange.code = 3#4 ∧
  Fault.dstOutOfRange.code = 4#4 ∧ Fault.malformedVarint.code = 5#4 ∧
  ∀ r : Response, r.isFault = true ↔ r.flt ≠ 0#4

/-- What the host does to the memories between commands (rules R21 to R23, R150; the moves and their refusals are the model's, logs 7
and 14): a write changes one element; a container attached holds its contents, the rest zero; nothing else differs. -/
def Obligations.HostMovesReachTheMemories : Prop :=
  ∀ (s : State) (rest : List HostMove), s.cmd = none →
    (∀ i b, s.host = .writeBuf i b :: rest → i < s.bufLen → ∃ m, step s = .next { s with host := rest, buf := m } ∧
      m.read i = b ∧ ∀ a, a ≠ i → m.read a = s.buf.read a) ∧
    (∀ i v, s.host = .writeVals i v :: rest → i < s.valsLen → ∃ m, step s = .next { s with host := rest, vals := m } ∧
      m.read i = v ∧ ∀ a, a ≠ i → m.read a = s.vals.read a) ∧
    (∀ i v, s.host = .writeDst i v :: rest → i < s.dstLen → ∃ m, step s = .next { s with host := rest, dst := m } ∧
      m.read i = v ∧ ∀ a, a ≠ i → m.read a = s.dst.read a) ∧
    (∀ len cs, s.host = .attachBuf len cs :: rest → len < Config.indexBound s.offW → (∀ c ∈ cs, c.1 < len) →
      ∃ m, step s = .next { s with host := rest, bufLen := len, buf := m } ∧ ∀ a, m.read a = Memory.read cs a) ∧
    (∀ len cs, s.host = .attachVals len cs :: rest → len < Config.indexBound s.offW → (∀ c ∈ cs, c.1 < len) →
      ∃ m, step s = .next { s with host := rest, valsLen := len, vals := m } ∧ ∀ a, m.read a = Memory.read cs a) ∧
    (∀ len cs, s.host = .attachDst len cs :: rest → len < Config.indexBound s.offW → (∀ c ∈ cs, c.1 < len) →
      ∃ m, step s = .next { s with host := rest, dstLen := len, dst := m } ∧ ∀ a, m.read a = Memory.read cs a) ∧
    (s.host = .readResponse :: rest → step s = .next { s with host := rest, response := none })

/-- The machine after reset (rules R32, R154; the capacities and contents are the model's choices, logs 2 and 3): idle, no response,
no fault recorded, and the invariant holds. -/
def Obligations.ResetIsIdleAndSound : Prop :=
  State.reset.Idle ∧ State.reset.Safe ∧ State.reset.Inv

/-- Every step keeps the invariant: memories canonical and inside their capacities, capacities inside the index space, no working state
between steps, only legal responses (rules R6, R30, R71). -/
def Obligations.StepKeepsInvariant : Prop :=
  ∀ s t : State, s.Inv → step s = .next t → t.Inv

/-- A recorded fault stays recorded, and the record of responses only grows (rules R129, R143; reset included, log 19). -/
def Obligations.FaultRecordIsKept : Prop :=
  ∀ s t : State, step s = .next t → s.received <+: t.received ∧ (s.faultRecorded = true → t.faultRecorded = true)

/-- Reset (rules R32, R140): no command in flight, no working state (held as zeros, log 13), no response; OFF_W, the capacities and VALS as
they were, and the responses so far (that a reset keeps them is log 19). BUF and DST as they were when the block was idle, when an
illegal command was in flight, and when a DECS was that would fault. With a command in flight each byte of BUF is old or, in the
range an encoder writes before its end or its raise (log 18), the byte it would write there; each element of DST is old or, for a
DECS that would not fault, the one it would leave; and for any command that would not fault all is old or as it would have left
it. That a reset lands before the command in flight ends is log 7. -/
def Obligations.ResetAbandonsTheCommand : Prop :=
  ∀ (s : State) (rest : List HostMove), s.host = .reset :: rest →
    ∃ t, step s = .next t ∧ t.Idle ∧ t.host = rest ∧ t.received = s.received ∧ t.vals = s.vals ∧ t.offW = s.offW ∧
      t.bufLen = s.bufLen ∧ t.valsLen = s.valsLen ∧ t.dstLen = s.dstLen ∧
      (s.cmd = none → t.buf = s.buf ∧ t.dst = s.dst) ∧
      (∀ c e, s.cmd = some c → decode c = .error e → t.buf = s.buf ∧ t.dst = s.dst) ∧
      ∀ c i u r, s.cmd = some c → decode c = .ok i → exec i s = .next u → u.response = some r →
        (∀ a, t.buf.read a = s.buf.read a ∨
          MayWriteBuf s a i ∧ a < s.bufLen ∧ (t.buf.read a).toNat = storedLayout s a i) ∧
        (∀ a, t.dst.read a = s.dst.read a ∨ MayWriteDst a i ∧ a < s.dstLen ∧ r.isFault = false ∧ t.dst.read a = u.dst.read a) ∧
        (r.isFault = false → ∀ a, t.buf.read a = s.buf.read a ∨ t.buf.read a = u.buf.read a) ∧
        ((∃ off didx, i = .decs off didx) → r.isFault = true → t.buf = s.buf ∧ t.dst = s.dst)

/-- The constants (rules R6, R27; CAPACITIES_FIXED of rule R154): no step changes OFF_W, and none that runs or abandons a command in
flight changes a capacity or VALS. -/
def Obligations.ConstantsStayFixed : Prop :=
  ∀ s t : State, step s = .next t → t.offW = s.offW ∧
    (s.cmd ≠ none → t.bufLen = s.bufLen ∧ t.valsLen = s.valsLen ∧ t.dstLen = s.dstLen ∧ t.vals = s.vals)
end

