-- ==== Sys2Proof/Laws/State.lean ====
section
/-! SUPPORT. One lemma per field per update of State: what each shared update leaves in each field. -/

namespace Sys2Proof.Machine

/-! A command's start sets the working state only. -/

@[simp] theorem startWork_offW (off : Nat) (s : State) : (startWork off s).offW = s.offW := rfl
@[simp] theorem startWork_bufLen (off : Nat) (s : State) : (startWork off s).bufLen = s.bufLen := rfl
@[simp] theorem startWork_buf (off : Nat) (s : State) : (startWork off s).buf = s.buf := rfl
@[simp] theorem startWork_valsLen (off : Nat) (s : State) : (startWork off s).valsLen = s.valsLen := rfl
@[simp] theorem startWork_vals (off : Nat) (s : State) : (startWork off s).vals = s.vals := rfl
@[simp] theorem startWork_dstLen (off : Nat) (s : State) : (startWork off s).dstLen = s.dstLen := rfl
@[simp] theorem startWork_dst (off : Nat) (s : State) : (startWork off s).dst = s.dst := rfl
@[simp] theorem startWork_cmd (off : Nat) (s : State) : (startWork off s).cmd = s.cmd := rfl
@[simp] theorem startWork_work (off : Nat) (s : State) : (startWork off s).work = { Work.none with cur := off } := rfl
@[simp] theorem startWork_response (off : Nat) (s : State) : (startWork off s).response = s.response := rfl
@[simp] theorem startWork_host (off : Nat) (s : State) : (startWork off s).host = s.host := rfl
@[simp] theorem startWork_received (off : Nat) (s : State) : (startWork off s).received = s.received := rfl
@[simp] theorem startWork_draws (off : Nat) (s : State) : (startWork off s).draws = s.draws := rfl

/-! The mapper sets `m` only. -/

@[simp] theorem mapValue_offW (v : Value) (s : State) : (mapValue v s).offW = s.offW := rfl
@[simp] theorem mapValue_bufLen (v : Value) (s : State) : (mapValue v s).bufLen = s.bufLen := rfl
@[simp] theorem mapValue_buf (v : Value) (s : State) : (mapValue v s).buf = s.buf := rfl
@[simp] theorem mapValue_valsLen (v : Value) (s : State) : (mapValue v s).valsLen = s.valsLen := rfl
@[simp] theorem mapValue_vals (v : Value) (s : State) : (mapValue v s).vals = s.vals := rfl
@[simp] theorem mapValue_dstLen (v : Value) (s : State) : (mapValue v s).dstLen = s.dstLen := rfl
@[simp] theorem mapValue_dst (v : Value) (s : State) : (mapValue v s).dst = s.dst := rfl
@[simp] theorem mapValue_cmd (v : Value) (s : State) : (mapValue v s).cmd = s.cmd := rfl
@[simp] theorem mapValue_work (v : Value) (s : State) : (mapValue v s).work = { s.work with m := zigzag v } := rfl
@[simp] theorem mapValue_response (v : Value) (s : State) : (mapValue v s).response = s.response := rfl
@[simp] theorem mapValue_host (v : Value) (s : State) : (mapValue v s).host = s.host := rfl
@[simp] theorem mapValue_received (v : Value) (s : State) : (mapValue v s).received = s.received := rfl
@[simp] theorem mapValue_draws (v : Value) (s : State) : (mapValue v s).draws = s.draws := rfl

/-! The batch's index moves on. -/

@[simp] theorem nextElement_offW (s : State) : (nextElement s).offW = s.offW := rfl
@[simp] theorem nextElement_bufLen (s : State) : (nextElement s).bufLen = s.bufLen := rfl
@[simp] theorem nextElement_buf (s : State) : (nextElement s).buf = s.buf := rfl
@[simp] theorem nextElement_valsLen (s : State) : (nextElement s).valsLen = s.valsLen := rfl
@[simp] theorem nextElement_vals (s : State) : (nextElement s).vals = s.vals := rfl
@[simp] theorem nextElement_dstLen (s : State) : (nextElement s).dstLen = s.dstLen := rfl
@[simp] theorem nextElement_dst (s : State) : (nextElement s).dst = s.dst := rfl
@[simp] theorem nextElement_cmd (s : State) : (nextElement s).cmd = s.cmd := rfl
@[simp] theorem nextElement_work (s : State) : (nextElement s).work = { s.work with i := s.work.i + 1 } := rfl
@[simp] theorem nextElement_response (s : State) : (nextElement s).response = s.response := rfl
@[simp] theorem nextElement_host (s : State) : (nextElement s).host = s.host := rfl
@[simp] theorem nextElement_received (s : State) : (nextElement s).received = s.received := rfl
@[simp] theorem nextElement_draws (s : State) : (nextElement s).draws = s.draws := rfl

/-! A response ends the command and leaves the memories alone. -/

@[simp] theorem respond_offW (r : Response) (s : State) : (respond r s).offW = s.offW := rfl
@[simp] theorem respond_bufLen (r : Response) (s : State) : (respond r s).bufLen = s.bufLen := rfl
@[simp] theorem respond_buf (r : Response) (s : State) : (respond r s).buf = s.buf := rfl
@[simp] theorem respond_valsLen (r : Response) (s : State) : (respond r s).valsLen = s.valsLen := rfl
@[simp] theorem respond_vals (r : Response) (s : State) : (respond r s).vals = s.vals := rfl
@[simp] theorem respond_dstLen (r : Response) (s : State) : (respond r s).dstLen = s.dstLen := rfl
@[simp] theorem respond_dst (r : Response) (s : State) : (respond r s).dst = s.dst := rfl
@[simp] theorem respond_cmd (r : Response) (s : State) : (respond r s).cmd = none := rfl
@[simp] theorem respond_work (r : Response) (s : State) : (respond r s).work = Work.none := rfl
@[simp] theorem respond_response (r : Response) (s : State) : (respond r s).response = some r := rfl
@[simp] theorem respond_host (r : Response) (s : State) : (respond r s).host = s.host := rfl
@[simp] theorem respond_received (r : Response) (s : State) : (respond r s).received = s.received ++ [r] := rfl
@[simp] theorem respond_draws (r : Response) (s : State) : (respond r s).draws = s.draws := rfl

/-! Settling touches BUF and the draw counter only. -/

@[simp] theorem settleBuf_offW (p : State) (lo hi : Nat) (s : State) : (settleBuf p lo hi s).offW = s.offW := rfl
@[simp] theorem settleBuf_bufLen (p : State) (lo hi : Nat) (s : State) : (settleBuf p lo hi s).bufLen = s.bufLen := rfl
@[simp] theorem settleBuf_buf (p : State) (lo hi : Nat) (s : State) : (settleBuf p lo hi s).buf = Memory.settle p.buf s.buf s.draws lo (hi - lo) := rfl
@[simp] theorem settleBuf_valsLen (p : State) (lo hi : Nat) (s : State) : (settleBuf p lo hi s).valsLen = s.valsLen := rfl
@[simp] theorem settleBuf_vals (p : State) (lo hi : Nat) (s : State) : (settleBuf p lo hi s).vals = s.vals := rfl
@[simp] theorem settleBuf_dstLen (p : State) (lo hi : Nat) (s : State) : (settleBuf p lo hi s).dstLen = s.dstLen := rfl
@[simp] theorem settleBuf_dst (p : State) (lo hi : Nat) (s : State) : (settleBuf p lo hi s).dst = s.dst := rfl
@[simp] theorem settleBuf_cmd (p : State) (lo hi : Nat) (s : State) : (settleBuf p lo hi s).cmd = s.cmd := rfl
@[simp] theorem settleBuf_work (p : State) (lo hi : Nat) (s : State) : (settleBuf p lo hi s).work = s.work := rfl
@[simp] theorem settleBuf_response (p : State) (lo hi : Nat) (s : State) : (settleBuf p lo hi s).response = s.response := rfl
@[simp] theorem settleBuf_host (p : State) (lo hi : Nat) (s : State) : (settleBuf p lo hi s).host = s.host := rfl
@[simp] theorem settleBuf_received (p : State) (lo hi : Nat) (s : State) : (settleBuf p lo hi s).received = s.received := rfl
@[simp] theorem settleBuf_draws (p : State) (lo hi : Nat) (s : State) : (settleBuf p lo hi s).draws = s.draws + (hi - lo) := rfl

/-! Taking a fault: the response, and BUF settled. -/

@[simp] theorem takeFault_offW (p : State) (lo hi : Nat) (f : Fault) (x : Nat) (s : State) : (takeFault p lo hi f x s).offW = s.offW := rfl
@[simp] theorem takeFault_bufLen (p : State) (lo hi : Nat) (f : Fault) (x : Nat) (s : State) : (takeFault p lo hi f x s).bufLen = s.bufLen := rfl
@[simp] theorem takeFault_buf (p : State) (lo hi : Nat) (f : Fault) (x : Nat) (s : State) : (takeFault p lo hi f x s).buf = Memory.settle p.buf s.buf s.draws lo (hi - lo) := rfl
@[simp] theorem takeFault_valsLen (p : State) (lo hi : Nat) (f : Fault) (x : Nat) (s : State) : (takeFault p lo hi f x s).valsLen = s.valsLen := rfl
@[simp] theorem takeFault_vals (p : State) (lo hi : Nat) (f : Fault) (x : Nat) (s : State) : (takeFault p lo hi f x s).vals = s.vals := rfl
@[simp] theorem takeFault_dstLen (p : State) (lo hi : Nat) (f : Fault) (x : Nat) (s : State) : (takeFault p lo hi f x s).dstLen = s.dstLen := rfl
@[simp] theorem takeFault_dst (p : State) (lo hi : Nat) (f : Fault) (x : Nat) (s : State) : (takeFault p lo hi f x s).dst = s.dst := rfl
@[simp] theorem takeFault_cmd (p : State) (lo hi : Nat) (f : Fault) (x : Nat) (s : State) : (takeFault p lo hi f x s).cmd = none := rfl
@[simp] theorem takeFault_work (p : State) (lo hi : Nat) (f : Fault) (x : Nat) (s : State) : (takeFault p lo hi f x s).work = Work.none := rfl
@[simp] theorem takeFault_response (p : State) (lo hi : Nat) (f : Fault) (x : Nat) (s : State) : (takeFault p lo hi f x s).response = some (.fault f x) := rfl
@[simp] theorem takeFault_host (p : State) (lo hi : Nat) (f : Fault) (x : Nat) (s : State) : (takeFault p lo hi f x s).host = s.host := rfl
@[simp] theorem takeFault_received (p : State) (lo hi : Nat) (f : Fault) (x : Nat) (s : State) : (takeFault p lo hi f x s).received = s.received ++ [.fault f x] := rfl
@[simp] theorem takeFault_draws (p : State) (lo hi : Nat) (f : Fault) (x : Nat) (s : State) : (takeFault p lo hi f x s).draws = s.draws + (hi - lo) := rfl

/-! Settling DST touches it and the draw counter only. -/

@[simp] theorem settleDst_offW (p : State) (d : Nat) (s : State) : (settleDst p d s).offW = s.offW := rfl
@[simp] theorem settleDst_bufLen (p : State) (d : Nat) (s : State) : (settleDst p d s).bufLen = s.bufLen := rfl
@[simp] theorem settleDst_buf (p : State) (d : Nat) (s : State) : (settleDst p d s).buf = s.buf := rfl
@[simp] theorem settleDst_valsLen (p : State) (d : Nat) (s : State) : (settleDst p d s).valsLen = s.valsLen := rfl
@[simp] theorem settleDst_vals (p : State) (d : Nat) (s : State) : (settleDst p d s).vals = s.vals := rfl
@[simp] theorem settleDst_dstLen (p : State) (d : Nat) (s : State) : (settleDst p d s).dstLen = s.dstLen := rfl
@[simp] theorem settleDst_dst (p : State) (d : Nat) (s : State) : (settleDst p d s).dst = Memory.settle p.dst s.dst s.draws d 1 := rfl
@[simp] theorem settleDst_cmd (p : State) (d : Nat) (s : State) : (settleDst p d s).cmd = s.cmd := rfl
@[simp] theorem settleDst_work (p : State) (d : Nat) (s : State) : (settleDst p d s).work = s.work := rfl
@[simp] theorem settleDst_response (p : State) (d : Nat) (s : State) : (settleDst p d s).response = s.response := rfl
@[simp] theorem settleDst_host (p : State) (d : Nat) (s : State) : (settleDst p d s).host = s.host := rfl
@[simp] theorem settleDst_received (p : State) (d : Nat) (s : State) : (settleDst p d s).received = s.received := rfl
@[simp] theorem settleDst_draws (p : State) (d : Nat) (s : State) : (settleDst p d s).draws = s.draws + 1 := rfl

/-! Issuing a command. -/

@[simp] theorem issueCommand_offW (c : Cmd) (s : State) : (issueCommand c s).offW = s.offW := rfl
@[simp] theorem issueCommand_bufLen (c : Cmd) (s : State) : (issueCommand c s).bufLen = s.bufLen := rfl
@[simp] theorem issueCommand_buf (c : Cmd) (s : State) : (issueCommand c s).buf = s.buf := rfl
@[simp] theorem issueCommand_valsLen (c : Cmd) (s : State) : (issueCommand c s).valsLen = s.valsLen := rfl
@[simp] theorem issueCommand_vals (c : Cmd) (s : State) : (issueCommand c s).vals = s.vals := rfl
@[simp] theorem issueCommand_dstLen (c : Cmd) (s : State) : (issueCommand c s).dstLen = s.dstLen := rfl
@[simp] theorem issueCommand_dst (c : Cmd) (s : State) : (issueCommand c s).dst = s.dst := rfl
@[simp] theorem issueCommand_cmd (c : Cmd) (s : State) : (issueCommand c s).cmd = some c := rfl
@[simp] theorem issueCommand_work (c : Cmd) (s : State) : (issueCommand c s).work = s.work := rfl
@[simp] theorem issueCommand_response (c : Cmd) (s : State) : (issueCommand c s).response = none := rfl
@[simp] theorem issueCommand_host (c : Cmd) (s : State) : (issueCommand c s).host = s.host := rfl
@[simp] theorem issueCommand_received (c : Cmd) (s : State) : (issueCommand c s).received = s.received := rfl
@[simp] theorem issueCommand_draws (c : Cmd) (s : State) : (issueCommand c s).draws = s.draws := rfl

@[simp] theorem Flow.andThen_go (s : State) (k : State → Flow) : (Flow.go s).andThen k = k s := rfl

@[simp] theorem Flow.andThen_raise (f : Fault) (x : Nat) (s : State) (k : State → Flow) :
    (Flow.raise f x s).andThen k = .raise f x s := rfl

@[simp] theorem Flow.state_go (s : State) : (Flow.go s).state = s := rfl

@[simp] theorem Flow.state_raise (f : Fault) (x : Nat) (s : State) : (Flow.raise f x s).state = s := rfl

end Sys2Proof.Machine
end

