-- ==== Sys2Proof/Laws/Memory.lean ====
section
/-! SUPPORT. The memory laws: read after write, canonical form kept, what a settled memory reads as. None of the read laws
needs the canonical form. -/

namespace Sys2Proof.Machine

variable {w : Nat}

@[simp] theorem Memory.read_nil (i : Nat) : Memory.read ([] : Memory w) i = 0 := rfl

theorem Memory.read_cons (c : Nat × BitVec w) (m : Memory w) (i : Nat) :
    Memory.read (c :: m) i = if c.1 = i then c.2 else Memory.read m i := rfl

theorem Memory.read_insert (c : Nat × BitVec w) (m : Memory w) (h : ∀ d ∈ m, d.1 ≠ c.1) (i : Nat) :
    Memory.read (Memory.insert c m) i = if c.1 = i then c.2 else Memory.read m i := by
  induction m with
  | nil => rfl
  | cons d m ih =>
    have hd := h d (by simp)
    have ih := ih fun e he => h e (by simp [he])
    simp only [Memory.insert]
    split
    · rfl
    · simp only [Memory.read_cons, ih]
      split_ifs <;> simp_all

theorem Memory.read_filter_ne (m : Memory w) (j i : Nat) :
    Memory.read (m.filter fun c => c.1 != j) i = if i = j then 0 else Memory.read m i := by
  induction m with
  | nil => simp
  | cons d m ih =>
    by_cases hd : d.1 = j
    · simp only [List.filter_cons, hd, bne_self_eq_false, Bool.false_eq_true, if_false, ih, Memory.read_cons]
      split_ifs <;> simp_all
    · have : (d.1 != j) = true := by simp [hd]
      simp only [List.filter_cons, this, if_true, Memory.read_cons, ih]
      split_ifs <;> simp_all

/-- Read after write. -/
@[simp] theorem Memory.read_write (m : Memory w) (i : Nat) (v : BitVec w) (a : Nat) :
    Memory.read (m.write i v) a = if a = i then v else Memory.read m a := by
  unfold Memory.write
  by_cases hv : v = 0
  · simp only [hv, if_true, Memory.read_filter_ne]
  · simp only [hv, if_false]
    rw [Memory.read_insert _ _ (by simp), Memory.read_filter_ne]
    simp only [eq_comm (a := i)]
    split_ifs <;> simp_all

theorem Memory.mem_insert (c : Nat × BitVec w) (m : Memory w) (d : Nat × BitVec w) :
    d ∈ Memory.insert c m ↔ d = c ∨ d ∈ m := by
  induction m with
  | nil => simp [Memory.insert]
  | cons e m ih =>
    simp only [Memory.insert]
    split
    · simp
    · simp only [List.mem_cons, ih]; tauto

theorem Memory.sorted_insert (c : Nat × BitVec w) (m : Memory w) (h : m.Pairwise fun a b => a.1 < b.1)
    (hc : ∀ d ∈ m, d.1 ≠ c.1) : (Memory.insert c m).Pairwise fun a b => a.1 < b.1 := by
  induction m with
  | nil => simp [Memory.insert]
  | cons e m ih =>
    rw [List.pairwise_cons] at h
    have he := hc e (by simp)
    simp only [Memory.insert]
    split
    next hlt =>
      refine List.pairwise_cons.2 ⟨fun d hd => ?_, List.pairwise_cons.2 h⟩
      rcases List.mem_cons.1 hd with rfl | hd
      · exact hlt
      · exact hlt.trans (h.1 d hd)
    next hlt =>
      refine List.pairwise_cons.2 ⟨fun d hd => ?_, ih h.2 fun d hd => hc d (by simp [hd])⟩
      rcases (Memory.mem_insert c m d).1 hd with rfl | hd
      · omega
      · exact h.1 d hd

/-- A write keeps the canonical form. -/
theorem Memory.write_wf {m : Memory w} (h : m.wf) (i : Nat) (v : BitVec w) : (m.write i v).wf := by
  have hs : (m.filter fun c => c.1 != i).Pairwise fun a b => a.1 < b.1 := h.1.filter _
  unfold Memory.write
  by_cases hv : v = 0
  · simp only [hv, if_true]
    exact ⟨hs, fun c hc => h.2 c (List.mem_of_mem_filter hc)⟩
  · simp only [hv, if_false]
    refine ⟨Memory.sorted_insert _ _ hs (by simp), fun c hc => ?_⟩
    rcases (Memory.mem_insert _ _ c).1 hc with rfl | hc
    · exact hv
    · exact h.2 c (List.mem_of_mem_filter hc)

/-- A write inside the container keeps every listed index inside it. -/
theorem Memory.write_within {m : Memory w} {len : Nat} (h : m.within len) {i : Nat} (hi : i < len) (v : BitVec w) :
    (m.write i v).within len := by
  intro c hc
  unfold Memory.write at hc
  split at hc
  · exact h c (List.mem_of_mem_filter hc)
  · rcases (Memory.mem_insert _ _ c).1 hc with rfl | hc
    · exact hi
    · exact h c (List.mem_of_mem_filter hc)

theorem Memory.read_eq_zero {m : Memory w} {i : Nat} (h : ∀ c ∈ m, c.1 ≠ i) : Memory.read m i = 0 := by
  induction m with
  | nil => rfl
  | cons c m ih =>
    rw [Memory.read_cons, if_neg (h c (by simp)), ih fun d hd => h d (by simp [hd])]

/-- Two memories in canonical form that read alike everywhere are the same data. -/
theorem Memory.ext_of_read {m m' : Memory w} (h : m.wf) (h' : m'.wf)
    (hr : ∀ i, Memory.read m i = Memory.read m' i) : m = m' := by
  induction m generalizing m' with
  | nil =>
    cases m' with
    | nil => rfl
    | cons d m' =>
      have := hr d.1
      simp only [Memory.read_nil, Memory.read_cons, if_true] at this
      exact absurd this.symm (h'.2 d (by simp))
  | cons c m ih =>
    have hc : c.2 ≠ 0 := h.2 c (by simp)
    have hp := List.pairwise_cons.1 h.1
    cases m' with
    | nil =>
      have := hr c.1
      simp only [Memory.read_nil, Memory.read_cons, if_true] at this
      exact absurd this hc
    | cons d m' =>
      have hd : d.2 ≠ 0 := h'.2 d (by simp)
      have hp' := List.pairwise_cons.1 h'.1
      have key : c.1 = d.1 := by
        rcases Nat.lt_trichotomy c.1 d.1 with hlt | heq | hlt
        · have := hr c.1
          rw [Memory.read_cons, if_pos rfl, Memory.read_cons, if_neg (by omega),
            Memory.read_eq_zero fun e he => by have := hp'.1 e he; omega] at this
          exact absurd this hc
        · exact heq
        · have := hr d.1
          rw [Memory.read_cons, if_neg (by omega), Memory.read_cons, if_pos rfl,
            Memory.read_eq_zero fun e he => by have := hp.1 e he; omega] at this
          exact absurd this.symm hd
      have hv : c.2 = d.2 := by simpa [Memory.read_cons, key] using hr c.1
      have hcd : c = d := Prod.ext key hv
      subst hcd
      congr 1
      refine ih ⟨hp.2, fun e he => h.2 e (by simp [he])⟩ ⟨hp'.2, fun e he => h'.2 e (by simp [he])⟩ fun i => ?_
      by_cases hi : c.1 = i
      · rw [Memory.read_eq_zero fun e he => by have := hp.1 e he; omega,
          Memory.read_eq_zero fun e he => by have := hp'.1 e he; omega]
      · simpa [Memory.read_cons, hi] using hr i

/-- What a settled memory reads as: inside the range, old or new by the index's own draw; outside, the new memory. -/
theorem Memory.read_settle (old new : Memory w) (d lo k a : Nat) :
    Memory.read (Memory.settle old new d lo k) a =
      if lo ≤ a ∧ a < lo + k ∧ Config.drawKeepsNew (d + (a - lo)) = false then Memory.read old a else Memory.read new a := by
  induction k with
  | zero => simp only [Memory.settle]; rw [if_neg]; omega
  | succ k ih =>
    simp only [Memory.settle]
    by_cases ha : a = lo + k
    · subst ha
      by_cases hd : Config.drawKeepsNew (d + k) = true
      · rw [if_pos hd, ih, if_neg (by omega), if_neg]
        simp [hd]
      · rw [if_neg hd, Memory.read_write, if_pos rfl, if_pos]
        simpa using hd
    · have : (lo ≤ a ∧ a < lo + (k + 1) ∧ Config.drawKeepsNew (d + (a - lo)) = false) ↔
          (lo ≤ a ∧ a < lo + k ∧ Config.drawKeepsNew (d + (a - lo)) = false) := by
        constructor <;> rintro ⟨h1, h2, h3⟩ <;> exact ⟨h1, by omega, h3⟩
      by_cases hd : Config.drawKeepsNew (d + k) = true
      · rw [if_pos hd, ih, if_congr this rfl rfl]
      · rw [if_neg hd, Memory.read_write, if_neg ha, ih, if_congr this rfl rfl]

theorem Memory.settle_wf {old new : Memory w} (h : new.wf) (d lo k : Nat) : (Memory.settle old new d lo k).wf := by
  induction k with
  | zero => exact h
  | succ k ih => simp only [Memory.settle]; split; exacts [ih, Memory.write_wf ih _ _]

theorem Memory.settle_within {old new : Memory w} {len : Nat} (h : new.within len) {lo k : Nat} (hk : lo + k ≤ len)
    (d : Nat) : (Memory.settle old new d lo k).within len := by
  induction k with
  | zero => exact h
  | succ k ih =>
    have ih := ih (by omega)
    simp only [Memory.settle]
    split
    · exact ih
    · exact Memory.write_within ih (by omega) _

@[simp] theorem Memory.settle_zero (old new : Memory w) (d lo : Nat) : Memory.settle old new d lo 0 = new := rfl

/-- A list of elements written one after another from `lo`. -/
def Memory.writeAll (m : Memory w) (lo : Nat) : List (BitVec w) → Memory w
  | [] => m
  | v :: vs => Memory.writeAll (m.write lo v) (lo + 1) vs

theorem Memory.writeAll_append (m : Memory w) (lo : Nat) (vs us : List (BitVec w)) :
    Memory.writeAll m lo (vs ++ us) = Memory.writeAll (Memory.writeAll m lo vs) (lo + vs.length) us := by
  induction vs generalizing m lo with
  | nil => simp [Memory.writeAll]
  | cons v vs ih => simp [Memory.writeAll, ih, Nat.add_assoc, Nat.add_comm 1]

theorem Memory.read_writeAll (m : Memory w) (lo : Nat) (vs : List (BitVec w)) (a : Nat) :
    Memory.read (Memory.writeAll m lo vs) a =
      if h : lo ≤ a ∧ a - lo < vs.length then vs[a - lo] else Memory.read m a := by
  induction vs generalizing m lo with
  | nil => simp [Memory.writeAll]
  | cons v vs ih =>
    simp only [Memory.writeAll, ih, Memory.read_write, List.length_cons]
    by_cases ha : a = lo
    · subst ha; simp
    · by_cases h : lo + 1 ≤ a ∧ a - (lo + 1) < vs.length
      · rw [dif_pos h, dif_pos (by omega)]
        have : a - lo = (a - (lo + 1)) + 1 := by omega
        simp [this]
      · rw [dif_neg h, if_neg ha, dif_neg (by omega)]

theorem Memory.writeAll_wf {m : Memory w} (h : m.wf) (lo : Nat) (vs : List (BitVec w)) : (Memory.writeAll m lo vs).wf := by
  induction vs generalizing m lo with
  | nil => exact h
  | cons v vs ih => exact ih (Memory.write_wf h _ _) _

theorem Memory.writeAll_within {m : Memory w} {len : Nat} (h : m.within len) {lo : Nat} {vs : List (BitVec w)}
    (hl : vs = [] ∨ lo + vs.length ≤ len) : (Memory.writeAll m lo vs).within len := by
  induction vs generalizing m lo with
  | nil => exact h
  | cons v vs ih =>
    simp only [List.length_cons, reduceCtorEq, false_or] at hl
    exact ih (Memory.write_within h (by omega) _) (.inr (by omega))

theorem Memory.ofContents_wf (cs : List (Nat × BitVec w)) : (Memory.ofContents cs).wf := by
  induction cs with
  | nil => exact ⟨List.Pairwise.nil, by simp [Memory.ofContents]⟩
  | cons c cs ih => exact Memory.write_wf ih _ _

theorem Memory.ofContents_within {cs : List (Nat × BitVec w)} {len : Nat} (h : ∀ c ∈ cs, c.1 < len) :
    (Memory.ofContents cs).within len := by
  induction cs with
  | nil => simp [Memory.ofContents]
  | cons c cs ih => exact Memory.write_within (ih fun d hd => h d (by simp [hd])) (h c (by simp)) _

end Sys2Proof.Machine
end

