-- ==== Sys2Proof/Laws/Operands.lean ====
section
/-! SUPPORT. The pure functions on operands as numbers: a varint byte and its two fields, the length unit, the bytes
`EncodeVarint` writes, zigzag and its inverse. -/

namespace Sys2Proof.Machine

theorem varintByte_toNat (c : Bool) (m : Value) :
    (varintByte c m).toNat = (if c then 2 ^ 7 else 0) + m.toNat % 2 ^ 7 := by
  have h : m.toNat % 2 ^ 7 < 2 ^ 7 := Nat.mod_lt _ (by omega)
  rw [varintByte, BitVec.toNat_append, BitVec.extractLsb'_toNat, Nat.shiftRight_zero, ← Nat.shiftLeft_add_eq_or_of_lt h]
  cases c <;> rfl

theorem continues_iff (b : Byte) : continues b = true ↔ 2 ^ 7 ≤ b.toNat := by
  have h := b.isLt
  simp only [continues, BitVec.getLsbD, Nat.testBit_eq_decide_div_mod_eq, decide_eq_true_eq]
  omega

theorem payload_toNat (b : Byte) : (payload b).toNat = groupNat b := by
  simp only [payload, groupNat, BitVec.toNat_setWidth, BitVec.extractLsb'_toNat, Nat.shiftRight_zero]
  omega

@[simp] theorem continues_varintByte (c : Bool) (m : Value) : continues (varintByte c m) = c := by
  rw [Bool.eq_iff_iff, continues_iff, varintByte_toNat]
  have : m.toNat % 2 ^ 7 < 2 ^ 7 := Nat.mod_lt _ (by omega)
  cases c
  · simp; omega
  · simp

theorem groupNat_varintByte (c : Bool) (m : Value) : groupNat (varintByte c m) = m.toNat % 2 ^ 7 := by
  rw [groupNat, varintByte_toNat]
  split <;> omega

theorem needsMore_iff (m : Value) : needsMore m = true ↔ 2 ^ 7 ≤ m.toNat := by
  have h := m.isLt
  rw [needsMore, bne_iff_ne, Ne, ← BitVec.toNat_inj, BitVec.extractLsb'_toNat, Nat.shiftRight_eq_div_pow]
  simp only [BitVec.ofNat_eq_ofNat, BitVec.toNat_ofNat]
  omega

theorem shift_toNat (m : Value) : (m >>> Config.groupW).toNat = m.toNat / 2 ^ 7 := by
  rw [BitVec.toNat_ushiftRight, Nat.shiftRight_eq_div_pow]

theorem usize_pos (m : Value) : 1 ≤ usize m := by unfold usize; split_ifs <;> omega

theorem usize_le_maxVarint (m : Value) : usize m ≤ 10 := by unfold usize; split_ifs <;> omega

theorem usize_eq_one (m : Value) (h : m.toNat < 2 ^ 7) : usize m = 1 := by
  rw [usize, if_pos h]

/-- The pattern fits in its size, and not in one byte less (rule R85). -/
theorem usize_spec (m : Value) :
    m.toNat < 2 ^ (7 * usize m) ∧ (usize m = 1 ∨ 2 ^ (7 * (usize m - 1)) ≤ m.toNat) := by
  have hlt := m.isLt
  unfold usize
  generalize m.toNat = x at *
  split_ifs <;> norm_num at * <;> omega

theorem usize_le_iff (m : Value) (k : Nat) (h1 : 1 ≤ k) (h9 : k ≤ 9) : usize m ≤ k ↔ m.toNat < 2 ^ (7 * k) := by
  obtain ⟨ha, hb⟩ := usize_spec m
  constructor
  · intro h
    exact ha.trans_le (Nat.pow_le_pow_right (by omega) (by omega))
  · intro h
    rcases hb with hb | hb
    · omega
    · have := (Nat.pow_lt_pow_iff_right (by omega : 1 < 2)).1 (hb.trans_lt h)
      omega

theorem usize_unique (m : Value) (k : Nat) (hlt : m.toNat < 2 ^ (7 * k))
    (hge : k = 1 ∨ 1 ≤ k ∧ 2 ^ (7 * (k - 1)) ≤ m.toNat) : usize m = k := by
  obtain ⟨ha, hb⟩ := usize_spec m
  have hp := usize_pos m
  have h1 : ∀ {a b : Nat}, 2 ^ (7 * (a - 1)) ≤ m.toNat → m.toNat < 2 ^ (7 * b) → a ≤ b := fun h h' => by
    have := (Nat.pow_lt_pow_iff_right (by omega : 1 < 2)).1 (h.trans_lt h')
    omega
  rcases hge with rfl | ⟨hk, hge⟩
  · rcases hb with hb | hb
    · exact hb
    · have := h1 hb hlt; omega
  · have h2 := h1 hge ha
    rcases hb with hb | hb
    · omega
    · have := h1 hb hlt; omega

theorem usize_shift (m : Value) (h : 2 ^ 7 ≤ m.toNat) : usize m = usize (m >>> Config.groupW) + 1 := by
  obtain ⟨ha, hb⟩ := usize_spec (m >>> Config.groupW)
  have hp := usize_pos (m >>> Config.groupW)
  rw [shift_toNat] at ha hb
  apply usize_unique
  · rw [Nat.div_lt_iff_lt_mul (by omega), ← pow_add] at ha
    exact ha
  · refine .inr ⟨by omega, ?_⟩
    rcases hb with hb | hb
    · rw [hb]; exact h
    · rw [Nat.le_div_iff_mul_le (by omega), ← pow_add] at hb
      rwa [show 7 * (usize (m >>> Config.groupW) + 1 - 1) = 7 * (usize (m >>> Config.groupW) - 1) + 7 by omega]

/-- The bytes `EncodeVarint` writes, in order, with at most `k` continued ones (rules R62, R88). -/
def varintBytesN : Nat → Value → List Byte
  | 0, m => [varintByte false m]
  | k + 1, m =>
    if needsMore m then varintByte true m :: varintBytesN k (m >>> Config.groupW) else [varintByte false m]

/-- The bytes of the unsigned varint of `m` (rule R62). -/
def varintBytes (m : Value) : List Byte := varintBytesN (Config.maxVarint - 1) m

theorem length_varintBytesN (k : Nat) (m : Value) (h : m.toNat < 2 ^ (7 * (k + 1))) :
    (varintBytesN k m).length = usize m := by
  induction k generalizing m with
  | zero => simp [varintBytesN, usize_eq_one m (by simpa using h)]
  | succ k ih =>
    simp only [varintBytesN]
    by_cases hm : 2 ^ 7 ≤ m.toNat
    · rw [if_pos ((needsMore_iff m).2 hm), List.length_cons, ih, ← usize_shift m hm]
      rw [shift_toNat, Nat.div_lt_iff_lt_mul (by omega), ← pow_add]
      exact h
    · rw [if_neg (by rw [needsMore_iff]; exact hm), usize_eq_one m (by omega)]
      rfl

theorem getElem_varintBytesN (k : Nat) (m : Value) (h : m.toNat < 2 ^ (7 * (k + 1))) (j : Nat)
    (hj : j < (varintBytesN k m).length) : ((varintBytesN k m)[j]).toNat = varintLayout m j := by
  induction k generalizing m j with
  | zero =>
    have : j = 0 := by simpa [varintBytesN] using hj
    subst this
    simp [varintBytesN, varintByte_toNat, varintLayout, usize_eq_one m (by simpa using h)]
  | succ k ih =>
    by_cases hm : 2 ^ 7 ≤ m.toNat
    · have hn := (needsMore_iff m).2 hm
      have hu := usize_shift m hm
      have hp := usize_pos (m >>> Config.groupW)
      simp only [varintBytesN, hn, if_true] at hj ⊢
      cases j with
      | zero =>
        simp only [List.getElem_cons_zero, varintByte_toNat, varintLayout, if_true, Nat.mul_zero, pow_zero, Nat.div_one]
        rw [if_pos (by omega)]
      | succ j =>
        simp only [List.getElem_cons_succ]
        rw [ih]
        · simp only [varintLayout, shift_toNat, hu, Nat.div_div_eq_div_mul, ← pow_add, Nat.mul_add, Nat.mul_one,
            Nat.add_comm (7 * j) 7, Nat.add_lt_add_iff_right]
        · rw [shift_toNat, Nat.div_lt_iff_lt_mul (by omega), ← pow_add]
          exact h
    · have hn : needsMore m = false := by rw [Bool.eq_false_iff, Ne, needsMore_iff]; exact hm
      simp only [varintBytesN, hn, Bool.false_eq_true, if_false, List.length_singleton] at hj ⊢
      have : j = 0 := by omega
      subst this
      simp [varintByte_toNat, varintLayout, usize_eq_one m (by omega)]

@[simp] theorem length_varintBytes (m : Value) : (varintBytes m).length = usize m :=
  length_varintBytesN _ m (m.isLt.trans (by decide))

theorem getElem_varintBytes (m : Value) (j : Nat) (hj : j < (varintBytes m).length) :
    ((varintBytes m)[j]).toNat = varintLayout m j :=
  getElem_varintBytesN _ m (m.isLt.trans (by decide)) j hj

theorem varintBytes_ne_nil (m : Value) : varintBytes m ≠ [] := by
  intro h
  have := length_varintBytes m
  rw [h] at this
  have := usize_pos m
  simp at *
  omega

/-! Zigzag and its inverse, bit by bit (rules R100, R110). -/

theorem getLsbD_zigzag (v : Value) (i : Nat) (hi : i < 64) :
    (zigzag v).getLsbD i = (v.getLsbD 63 ^^ (!decide (i < 1) && v.getLsbD (i - 1))) := by
  simp only [zigzag, BitVec.getLsbD_xor, BitVec.getLsbD_sshiftRight, BitVec.getLsbD_shiftLeft, hi, decide_true, Bool.true_and,
    show ¬ 64 ≤ i from by omega, decide_false, Bool.not_false]
  congr 1
  split
  · have : i = 0 := by omega
    simp [this]
  · simp [BitVec.msb_eq_getLsbD_last]

theorem neg_and_one (m : Value) : -(m &&& 1) = if m.getLsbD 0 then BitVec.allOnes 64 else 0 := by
  have h : m &&& 1 = if m.getLsbD 0 then 1 else 0 := by
    apply BitVec.eq_of_getLsbD_eq
    intro i hi
    by_cases h0 : i = 0
    · subst h0; cases hb : m.getLsbD 0 <;> simp_all
    · cases hb : m.getLsbD 0 <;> simp [BitVec.getLsbD_one, h0]
  rw [h]
  cases m.getLsbD 0 <;> decide

theorem getLsbD_unzigzag (m : Value) (i : Nat) (hi : i < 64) :
    (unzigzag m).getLsbD i = (m.getLsbD (1 + i) ^^ m.getLsbD 0) := by
  rw [unzigzag, neg_and_one, BitVec.getLsbD_xor, BitVec.getLsbD_ushiftRight]
  cases hb : m.getLsbD 0
  · simp
  · rw [if_pos rfl, BitVec.getLsbD_allOnes, decide_eq_true hi]

/-- The inverse mapping undoes the mapping (rule R110). -/
theorem unzigzag_zigzag (v : Value) : unzigzag (zigzag v) = v := by
  apply BitVec.eq_of_getLsbD_eq
  intro i hi
  rw [getLsbD_unzigzag _ _ hi, getLsbD_zigzag _ 0 (by omega)]
  by_cases h : 1 + i < 64
  · rw [getLsbD_zigzag _ _ h, Nat.add_sub_cancel_left]
    cases v.getLsbD 63 <;> simp
  · have : i = 63 := by omega
    subst this
    simp

/-- The mapping undoes the inverse mapping (rule R110). -/
theorem zigzag_unzigzag (m : Value) : zigzag (unzigzag m) = m := by
  apply BitVec.eq_of_getLsbD_eq
  intro i hi
  rw [getLsbD_zigzag _ _ hi, getLsbD_unzigzag _ 63 (by omega)]
  by_cases h : i = 0
  · subst h; simp
  · rw [getLsbD_unzigzag _ _ (by omega), show 1 + (i - 1) = i by omega]
    have : decide (i < 1) = false := by simp; omega
    have h64 : m.getLsbD (1 + 63) = false := BitVec.getLsbD_of_ge _ _ (by omega)
    rw [this, h64]
    cases m.getLsbD 0 <;> cases m.getLsbD i <;> rfl

/-- Zigzag in numbers (rule R100). -/
theorem zigzag_toNat (v : Value) : ((zigzag v).toNat : Int) = if 0 ≤ v.toInt then 2 * v.toInt else -2 * v.toInt - 1 := by
  have hlt := v.isLt
  have hsl : (v <<< 1).toNat = v.toNat * 2 % 2 ^ 64 := by
    simp [BitVec.toNat_shiftLeft, Nat.shiftLeft_eq]
  by_cases hm : v.msb
  · have hv : 2 ^ 63 ≤ v.toNat := by
      have := BitVec.msb_eq_decide v; simp [hm] at this; simpa using this
    have hs : v.sshiftRight 63 = BitVec.allOnes 64 := by
      apply BitVec.eq_of_getLsbD_eq
      intro i hi
      rw [BitVec.getLsbD_sshiftRight]
      by_cases h0 : 63 + i < 64
      · have : i = 0 := by omega
        subst this
        simp [BitVec.msb_eq_getLsbD_last] at hm
        simp [hm]
      · rw [if_neg h0, hm, BitVec.getLsbD_allOnes]
        simp [hi]
    have hz : zigzag v = ~~~ (v <<< 1) := by
      rw [zigzag, hs]; exact BitVec.allOnes_xor
    have hi : v.toInt = (v.toNat : Int) - 2 ^ 64 := by
      rw [BitVec.toInt_eq_toNat_cond, if_neg (by omega)]; norm_num
    rw [hz, BitVec.toNat_not, hsl, hi, if_neg (by omega)]
    omega
  · have hv : v.toNat < 2 ^ 63 := by
      have := BitVec.msb_eq_decide v; simp [hm] at this; simpa using this
    have hs : v.sshiftRight 63 = 0 := by
      apply BitVec.eq_of_getLsbD_eq
      intro i hi
      rw [BitVec.getLsbD_sshiftRight]
      by_cases h0 : 63 + i < 64
      · have : i = 0 := by omega
        subst this
        simp [BitVec.msb_eq_getLsbD_last] at hm
        simp [hm]
      · simp [hi, h0, hm]
    have hz : zigzag v = v <<< 1 := by
      rw [zigzag, hs]; simp
    have hi : v.toInt = (v.toNat : Int) := by
      rw [BitVec.toInt_eq_toNat_cond, if_pos (by omega)]
    rw [hz, hsl, hi, if_pos (by omega)]
    omega

theorem getLsbD_last_iff (v : Value) : v.getLsbD 63 = true ↔ 2 ^ 63 ≤ v.toNat := by
  have h := BitVec.msb_eq_decide v
  rw [BitVec.msb_eq_getLsbD_last, show (64 - 1 : Nat) = 63 from rfl] at h
  rw [h, decide_eq_true_eq]

/-- Ten bytes exactly for a pattern with bit 63 set (rule R86). -/
theorem usize_eq_ten (v : Value) : usize v = 10 ↔ v.getLsbD 63 = true := by
  rw [getLsbD_last_iff]
  have h := usize_le_iff v 9 (by omega) (by omega)
  have := usize_le_maxVarint v
  omega

end Sys2Proof.Machine
end

