-- ==== Sys2Proof/Laws/Encode.lean ====
section
/-! SUPPORT. What the encoders' pseudocode does, said once: the bytes of a list are written from the cursor up, or the first
that does not fit raises BufOutOfRange (rules R46, R80, R88, R90, R121). -/

namespace Sys2Proof.Machine

/-- The bytes fit from `lo`, or there are none. -/
abbrev BytesFit (s : State) (lo : Nat) (bs : List Byte) : Prop := bs = [] ∨ lo + bs.length ≤ s.bufLen

/-- Where a write of the bytes `bs` from the cursor of `s` ends: all written, or a fault at the first index outside BUF with
the bytes before it written. Nothing but BUF and the working state differs. -/
def Wrote (s : State) (bs : List Byte) : Flow → Prop
  | .go t => BytesFit s s.work.cur bs ∧ ∃ wk : Work,
      t = { s with buf := Memory.writeAll s.buf s.work.cur bs, work := wk } ∧
      wk.cur = s.work.cur + bs.length ∧ wk.i = s.work.i
  | .raise f x t => (bs ≠ [] ∧ s.bufLen < s.work.cur + bs.length) ∧ f = .bufOutOfRange ∧ x = max s.work.cur s.bufLen ∧
      ∃ wk : Work, t = { s with
        buf := Memory.writeAll s.buf s.work.cur (bs.take (s.bufLen - s.work.cur)), work := wk } ∧ wk.cur = x

theorem putByte_wrote (v : Byte) (s : State) : Wrote s [v] (putByte v s) := by
  unfold putByte bufWrite
  split
  next h =>
    refine ⟨⟨by simp, by simp; omega⟩, rfl, by omega, s.work, ?_, by omega⟩
    rw [show s.bufLen - s.work.cur = 0 by omega]
    rfl
  next h => exact ⟨.inr (by simp; omega), _, rfl, rfl, rfl⟩

theorem Wrote.andThen {s : State} {bs cs : List Byte} {f : Flow} {k : State → Flow} (h : Wrote s bs f)
    (hbs : bs ≠ []) (hk : ∀ t, f = .go t → Wrote t cs (k t)) : Wrote s (bs ++ cs) (f.andThen k) := by
  have hpos : 0 < bs.length := List.length_pos_iff.2 hbs
  cases f with
  | raise g x t =>
    obtain ⟨⟨-, hlt⟩, hg, hx, wk, ht, hc⟩ := h
    refine ⟨⟨by simp [hbs], by simp; omega⟩, hg, hx, wk, ?_, hc⟩
    rw [List.take_append_of_le_length (by omega)]
    exact ht
  | go t =>
    obtain ⟨hfit, wk, ht, hc, hi⟩ := h
    replace hfit : s.work.cur + bs.length ≤ s.bufLen := hfit.resolve_left hbs
    have h2 := hk t rfl
    rw [Flow.andThen_go]
    subst ht
    cases hkt : k { s with buf := Memory.writeAll s.buf s.work.cur bs, work := wk } with
    | go u =>
      rw [hkt] at h2
      obtain ⟨hf2, wk2, hu, hc2, hi2⟩ := h2
      simp only [BytesFit] at hf2
      refine ⟨.inr ?_, wk2, ?_, ?_, hi2.trans hi⟩
      · rcases hf2 with rfl | hf2
        · simpa using hfit
        · simp only [List.length_append]; omega
      · rw [hu, Memory.writeAll_append, hc]
      · rw [hc2, hc, List.length_append, Nat.add_assoc]
    | raise g x u =>
      rw [hkt] at h2
      obtain ⟨⟨hne, hlt⟩, hg, hx, wk2, hu, hc2⟩ := h2
      simp only at hlt hx hu
      refine ⟨⟨by simp [hbs], by simp only [List.length_append]; omega⟩, hg, by omega, wk2, ?_, hc2⟩
      rw [hu, hc, show s.bufLen - s.work.cur = bs.length + (s.bufLen - (s.work.cur + bs.length)) by omega,
        List.take_length_add_append, Memory.writeAll_append]

/-- A change of the working state that keeps the cursor and the index changes nothing of what a write does. -/
theorem Wrote.of_work {s : State} {wk : Work} {bs : List Byte} {f : Flow} (hc : wk.cur = s.work.cur) (hi : wk.i = s.work.i)
    (h : Wrote { s with work := wk } bs f) : Wrote s bs f := by
  cases f with
  | go t => simpa [Wrote, BytesFit, hc, hi] using h
  | raise g x t => simpa [Wrote, hc] using h

/-- `EncodeVarint`'s loop writes the bytes of the varint (rule R88). -/
theorem encodeLoop_wrote (k : Nat) (s : State) : Wrote s (varintBytesN k s.work.rem) (encodeLoop k s) := by
  induction k generalizing s with
  | zero => exact putByte_wrote _ s
  | succ k ih =>
    simp only [varintBytesN, encodeLoop]
    split
    · refine (putByte_wrote _ s).andThen (cs := varintBytesN k (s.work.rem >>> Config.groupW)) (by simp) fun t ht => ?_
      have hrem : t.work.rem = s.work.rem := by
        unfold putByte bufWrite at ht
        split at ht
        · simp at ht
        · simp only [Flow.andThen_go, advance, Flow.go.injEq] at ht
          rw [← ht]
      refine Wrote.of_work (wk := { t.work with rem := t.work.rem >>> Config.groupW }) rfl rfl ?_
      have := ih { t with work := { t.work with rem := t.work.rem >>> Config.groupW } }
      rwa [hrem] at this ⊢
    · exact putByte_wrote _ s

theorem encodeRem_wrote (s : State) : Wrote s (varintBytes s.work.rem) (encodeRem s) := encodeLoop_wrote _ s

theorem encodeVarint_wrote (m : Value) (s : State) : Wrote s (varintBytes m) (encodeVarint m s) :=
  Wrote.of_work (wk := { s.work with rem := m }) rfl rfl (encodeRem_wrote { s with work := { s.work with rem := m } })

/-- The bytes of a Fixed32 (rule R60). -/
def fixedBytes (w : Fixed) : List Byte :=
  [w.extractLsb' 24 8, w.extractLsb' 16 8, w.extractLsb' 8 8, w.extractLsb' 0 8]

theorem getElem_fixedBytes (w : Fixed) (j : Nat) (hj : j < (fixedBytes w).length) :
    ((fixedBytes w)[j]).toNat = fixedLayout w j := by
  replace hj : j < 4 := hj
  interval_cases j <;>
    simp [fixedBytes, fixedLayout, BitVec.extractLsb'_toNat, Nat.shiftRight_eq_div_pow]

/-- The same end, seen from the state in which the command started at `off`. -/
def RunWrote (s : State) (off : Nat) (bs : List Byte) (f : Flow) : Prop := Wrote (startWork off s) bs f

theorem runEncf32_wrote (w : Fixed) (off : Nat) (s : State) : RunWrote s off (fixedBytes w) (runEncf32 w off s) :=
  (putByte_wrote _ _).andThen (cs := [_, _, _]) (by simp) fun _ _ =>
    (putByte_wrote _ _).andThen (cs := [_, _]) (by simp) fun _ _ =>
      (putByte_wrote _ _).andThen (cs := [_]) (by simp) fun _ _ => putByte_wrote _ _

theorem runEncu_wrote (v : Value) (off : Nat) (s : State) : RunWrote s off (varintBytes v) (runEncu v off s) :=
  encodeVarint_wrote v _

theorem runEncs_wrote (v : Value) (off : Nat) (s : State) : RunWrote s off (varintBytes (zigzag v)) (runEncs v off s) :=
  Wrote.of_work (wk := (mapValue v (startWork off s)).work) rfl rfl (encodeVarint_wrote (zigzag v) _)

/-- The state after an encode command that wrote `bs` from `off` and succeeded. -/
def stored (s : State) (off : Nat) (bs : List Byte) : State :=
  respond (.offset (off + bs.length)) { s with buf := Memory.writeAll s.buf off bs }

/-- The state after an encode command that met BufOutOfRange while writing `bs` from `off` (rules R121, R127). -/
def storeFaulted (s : State) (off : Nat) (bs : List Byte) : State :=
  takeFault s off (max off s.bufLen) .bufOutOfRange (max off s.bufLen)
    { s with buf := Memory.writeAll s.buf off (bs.take (s.bufLen - off)) }

theorem RunWrote.finish_fits {s : State} {off : Nat} {bs : List Byte} {f : Flow} (h : RunWrote s off bs f)
    (hfit : BytesFit s off bs) : finishStores s off f = .next (stored s off bs) := by
  cases f with
  | go t =>
    obtain ⟨-, wk, rfl, hc, -⟩ := h
    simp only [startWork_work] at hc
    simp only [finishStores, stored, respond, startWork, hc]
  | raise g x t =>
    obtain ⟨⟨hne, hlt⟩, -⟩ := h
    simp only [startWork_bufLen, startWork_work] at hlt
    rcases hfit with rfl | hfit
    · exact absurd rfl hne
    · omega

theorem RunWrote.finish_faults {s : State} {off : Nat} {bs : List Byte} {f : Flow} (h : RunWrote s off bs f)
    (hfit : ¬ BytesFit s off bs) : finishStores s off f = .next (storeFaulted s off bs) := by
  cases f with
  | go t =>
    obtain ⟨hf, -⟩ := h
    exact absurd hf hfit
  | raise g x t =>
    obtain ⟨-, rfl, hx, wk, rfl, hc⟩ := h
    simp only [startWork_bufLen, startWork_work] at hx
    subst hx
    simp only [finishStores, storeFaulted, hc]
    rfl

theorem execEncf32_fits {w : Fixed} {off : Nat} {s : State} (h : BytesFit s off (fixedBytes w)) :
    exec (.encf32 w off) s = .next (stored s off (fixedBytes w)) := (runEncf32_wrote w off s).finish_fits h

theorem execEncf32_faults {w : Fixed} {off : Nat} {s : State} (h : ¬ BytesFit s off (fixedBytes w)) :
    exec (.encf32 w off) s = .next (storeFaulted s off (fixedBytes w)) := (runEncf32_wrote w off s).finish_faults h

theorem execEncu_fits {v : Value} {off : Nat} {s : State} (h : BytesFit s off (varintBytes v)) :
    exec (.encu v off) s = .next (stored s off (varintBytes v)) := (runEncu_wrote v off s).finish_fits h

theorem execEncu_faults {v : Value} {off : Nat} {s : State} (h : ¬ BytesFit s off (varintBytes v)) :
    exec (.encu v off) s = .next (storeFaulted s off (varintBytes v)) := (runEncu_wrote v off s).finish_faults h

theorem execEncs_fits {v : Value} {off : Nat} {s : State} (h : BytesFit s off (varintBytes (zigzag v))) :
    exec (.encs v off) s = .next (stored s off (varintBytes (zigzag v))) := (runEncs_wrote v off s).finish_fits h

theorem execEncs_faults {v : Value} {off : Nat} {s : State} (h : ¬ BytesFit s off (varintBytes (zigzag v))) :
    exec (.encs v off) s = .next (storeFaulted s off (varintBytes (zigzag v))) := (runEncs_wrote v off s).finish_faults h

theorem bytesFit_varint {s : State} {off : Nat} {m : Value} :
    BytesFit s off (varintBytes m) ↔ off + usize m ≤ s.bufLen := by
  simp [BytesFit, varintBytes_ne_nil]

theorem bytesFit_fixed {s : State} {off : Nat} {w : Fixed} : BytesFit s off (fixedBytes w) ↔ off + 4 ≤ s.bufLen := by
  simp [BytesFit, fixedBytes]

/-! The batch (rule R90). -/

/-- The bytes of `k` elements of VALS from element `i`, one varint after another. -/
def batchBytes (vals : Memory 64) (i : Nat) : Nat → List Byte
  | 0 => []
  | k + 1 => varintBytes (vals.read i) ++ batchBytes vals (i + 1) k

theorem batchBytes_succ_ne_nil (vals : Memory 64) (i k : Nat) : batchBytes vals i (k + 1) ≠ [] := by
  simp [batchBytes, varintBytes_ne_nil]

theorem batchBytes_snoc (vals : Memory 64) (i k : Nat) :
    batchBytes vals i (k + 1) = batchBytes vals i k ++ varintBytes (vals.read (i + k)) := by
  induction k generalizing i with
  | zero => simp [batchBytes]
  | succ k ih =>
    rw [batchBytes, ih, batchBytes, List.append_assoc, Nat.add_assoc, Nat.add_comm 1 k]

theorem length_batchBytes (vals : Memory 64) (k : Nat) : (batchBytes vals 0 k).length = batchSize vals k := by
  induction k with
  | zero => rfl
  | succ k ih => rw [batchBytes_snoc, List.length_append, ih, length_varintBytes, Nat.zero_add]; rfl

/-- The elements of the batch that VALS holds, of `k` left at index `i`. -/
def inSource (s : State) (i k : Nat) : Nat := min k (s.valsLen - i)

/-- Where a batch of `k` more elements ends (rules R90, R93, R128): all encoded; or BufOutOfRange while writing the elements
VALS holds; or, those all written, SrcOutOfRange at the first VALS does not hold. -/
def Batched (s : State) (k : Nat) (f : Flow) : Prop :=
  let bs := batchBytes s.vals s.work.i (inSource s s.work.i k)
  if BytesFit s s.work.cur bs then
    ∃ wk : Work, wk.cur = s.work.cur + bs.length ∧
      f = (if k ≤ s.valsLen - s.work.i then Flow.go else Flow.raise .srcOutOfRange (max s.work.i s.valsLen))
        { s with buf := Memory.writeAll s.buf s.work.cur bs, work := wk }
  else
    ∃ wk : Work, wk.cur = max s.work.cur s.bufLen ∧
      f = .raise .bufOutOfRange wk.cur
        { s with buf := Memory.writeAll s.buf s.work.cur (bs.take (s.bufLen - s.work.cur)), work := wk }

theorem encubLoop_batched (k : Nat) (s : State) : Batched s k (encubLoop k s) := by
  induction k generalizing s with
  | zero =>
    have hz : inSource s s.work.i 0 = 0 := Nat.zero_min _
    simp only [Batched, hz, batchBytes]
    rw [if_pos (Or.inl rfl)]
    exact ⟨s.work, rfl, by simp [encubLoop, Memory.writeAll]⟩
  | succ k ih =>
    simp only [encubLoop, valsRead]
    by_cases hv : s.valsLen ≤ s.work.i
    · have hz : inSource s s.work.i (k + 1) = 0 := by simp [inSource]; omega
      simp only [Batched, hz, batchBytes]
      rw [if_pos (Or.inl rfl)]
      refine ⟨s.work, rfl, ?_⟩
      rw [if_pos hv, if_neg (by omega), show max s.work.i s.valsLen = s.work.i by omega]
      rfl
    · have hin : inSource s s.work.i (k + 1) = inSource s (s.work.i + 1) k + 1 := by simp only [inSource]; omega
      rw [if_neg hv, Flow.andThen_go]
      set s1 : State := { s with work := { s.work with rem := s.vals.read s.work.i } } with hs1
      have hw : Wrote s (varintBytes (s.vals.read s.work.i)) (encodeRem s1) :=
        Wrote.of_work (wk := s1.work) rfl rfl (encodeRem_wrote s1)
      set vb := varintBytes (s.vals.read s.work.i) with hvb
      have hpos : 0 < vb.length := List.length_pos_iff.2 (varintBytes_ne_nil _)
      simp only [Batched, hin, batchBytes, ← hvb]
      set cs := batchBytes s.vals (s.work.i + 1) (inSource s (s.work.i + 1) k) with hcs
      cases hf : encodeRem s1 with
      | raise g x t =>
        rw [hf] at hw
        obtain ⟨⟨-, hlt⟩, rfl, hx, wk, rfl, hc⟩ := hw
        rw [if_neg (by simp only [BytesFit, List.append_eq_nil_iff, List.length_append]; rintro (⟨h, -⟩ | h)
                       · exact varintBytes_ne_nil _ h
                       · omega)]
        refine ⟨wk, by omega, ?_⟩
        rw [List.take_append_of_le_length (by omega), hc]
        rfl
      | go t =>
        rw [hf] at hw
        obtain ⟨hfit, wk, rfl, hc, hi⟩ := hw
        replace hfit : s.work.cur + vb.length ≤ s.bufLen := hfit.resolve_left (varintBytes_ne_nil _)
        rw [Flow.andThen_go]
        have := ih (nextElement { s with buf := Memory.writeAll s.buf s.work.cur vb, work := wk })
        simp only [Batched, nextElement, hi, hc, inSource] at this
        simp only [inSource] at hcs
        rw [← hcs] at this
        simp only [BytesFit] at this ⊢
        by_cases hfit2 : cs = [] ∨ s.work.cur + vb.length + cs.length ≤ s.bufLen
        · rw [if_pos hfit2] at this
          obtain ⟨wk2, hc2, hf2⟩ := this
          rw [if_pos (by
            rcases hfit2 with h | h
            · right; rw [h]; simpa using hfit
            · right; rw [List.length_append]; omega)]
          refine ⟨wk2, by rw [hc2, List.length_append]; omega, ?_⟩
          simp only [nextElement, hi, hf2, hc, Memory.writeAll_append]
          rw [show max (s.work.i + 1) s.valsLen = max s.work.i s.valsLen by omega]
          by_cases hk : k ≤ s.valsLen - (s.work.i + 1)
          · rw [if_pos hk, if_pos (by omega)]
          · rw [if_neg hk, if_neg (by omega)]
        · rw [if_neg hfit2] at this
          obtain ⟨wk2, hc2, hf2⟩ := this
          push Not at hfit2
          rw [if_neg (by
            rintro (h | h)
            · exact varintBytes_ne_nil _ (List.append_eq_nil_iff.1 h).1
            · rw [List.length_append] at h; omega)]
          refine ⟨wk2, by omega, ?_⟩
          simp only [nextElement, hi, hf2, hc]
          rw [show s.bufLen - s.work.cur = vb.length + (s.bufLen - (s.work.cur + vb.length)) by omega,
            List.take_length_add_append, Memory.writeAll_append]

/-- The bytes ENCUB writes: those of the first CNT elements that VALS holds. -/
def encubBytes (cnt : Nat) (s : State) : List Byte := batchBytes s.vals 0 (min cnt s.valsLen)

/-- The state after an ENCUB that wrote every element VALS holds and then met its end (rules R90, R122, R127). -/
def sourceFaulted (s : State) (off : Nat) (bs : List Byte) : State :=
  takeFault s off (off + bs.length) .srcOutOfRange s.valsLen { s with buf := Memory.writeAll s.buf off bs }

/-- Where ENCUB's pseudocode ends, seen from the state in which it started. -/
theorem runEncub_batched (cnt off : Nat) (s : State) :
    if BytesFit s off (encubBytes cnt s) then
      ∃ wk : Work, wk.cur = off + (encubBytes cnt s).length ∧
        runEncub cnt off s = (if cnt ≤ s.valsLen then Flow.go else Flow.raise .srcOutOfRange (max 0 s.valsLen))
          { s with buf := Memory.writeAll s.buf off (encubBytes cnt s), work := wk }
    else
      ∃ wk : Work, wk.cur = max off s.bufLen ∧
        runEncub cnt off s = .raise .bufOutOfRange wk.cur
          { s with buf := Memory.writeAll s.buf off ((encubBytes cnt s).take (s.bufLen - off)), work := wk } :=
  encubLoop_batched cnt (startWork off s)

theorem execEncub_fits {cnt off : Nat} {s : State} (hc : cnt ≤ s.valsLen) (h : BytesFit s off (encubBytes cnt s)) :
    exec (.encub cnt off) s = .next (stored s off (encubBytes cnt s)) := by
  have hb := runEncub_batched cnt off s
  rw [if_pos h, if_pos hc] at hb
  obtain ⟨wk, hcur, hf⟩ := hb
  simp only [exec, execEncub, hf, finishStores, hcur]
  rfl

theorem execEncub_source {cnt off : Nat} {s : State} (hc : s.valsLen < cnt) (h : BytesFit s off (encubBytes cnt s)) :
    exec (.encub cnt off) s = .next (sourceFaulted s off (encubBytes cnt s)) := by
  have hb := runEncub_batched cnt off s
  rw [if_pos h, if_neg (by omega)] at hb
  obtain ⟨wk, hcur, hf⟩ := hb
  simp only [exec, execEncub, hf, finishStores, hcur, Nat.zero_max]
  rfl

theorem execEncub_faults {cnt off : Nat} {s : State} (h : ¬ BytesFit s off (encubBytes cnt s)) :
    exec (.encub cnt off) s = .next (storeFaulted s off (encubBytes cnt s)) := by
  have hb := runEncub_batched cnt off s
  rw [if_neg h] at hb
  obtain ⟨wk, hcur, hf⟩ := hb
  simp only [exec, execEncub, hf, finishStores, hcur]
  rfl

theorem length_encubBytes (cnt : Nat) (s : State) : (encubBytes cnt s).length = batchSize s.vals (min cnt s.valsLen) :=
  length_batchBytes _ _

/-- Byte j of element i of the batch stands at the sum of the sizes before it, plus j (rules R62, R90). -/
theorem getElem_batchBytes (vals : Memory 64) {k i j : Nat} (hi : i < k) (hj : j < usize (vals.read i)) :
    ∃ h : batchSize vals i + j < (batchBytes vals 0 k).length,
      ((batchBytes vals 0 k)[batchSize vals i + j]).toNat = varintLayout (vals.read i) j := by
  induction k with
  | zero => omega
  | succ k ih =>
    have hl := length_batchBytes vals k
    simp only [batchBytes_snoc, Nat.zero_add, List.length_append, length_varintBytes]
    rcases Nat.lt_succ_iff_lt_or_eq.1 hi with hlt | rfl
    · obtain ⟨h, he⟩ := ih hlt
      refine ⟨by omega, ?_⟩
      rw [List.getElem_append_left h, he]
    · refine ⟨by omega, ?_⟩
      rw [List.getElem_append_right (by omega)]
      simp only [hl, Nat.add_sub_cancel_left]
      exact getElem_varintBytes _ _ _

end Sys2Proof.Machine
end

