-- ==== Sys2Proof/Laws/Decoder.lean ====
section
/-! SUPPORT. What DECS does, said once: the varint read whole and its Value stored, or one of its four faults with nothing
changed (rules R112 to R115, R123, R126). -/

namespace Sys2Proof.Machine

/-- The accumulator after `n` bytes from `off` (rule R112). -/
def accBits (buf : Memory 8) (off : Nat) : Nat → Value
  | 0 => 0
  | n + 1 => accBits buf off n ||| (payload (buf.read (off + n)) <<< (7 * n))

theorem groupNat_lt (b : Byte) : groupNat b < 2 ^ 7 := Nat.mod_lt _ (by omega)

theorem payloadNat_lt (buf : Memory 8) (off n : Nat) : payloadNat buf off n < 2 ^ (7 * n) := by
  induction n with
  | zero => simp [payloadNat]
  | succ n ih =>
    have hg := groupNat_lt (buf.read (off + n))
    rw [payloadNat, show 7 * (n + 1) = 7 * n + 7 by ring, pow_add]
    calc payloadNat buf off n + groupNat (buf.read (off + n)) * 2 ^ (7 * n)
        < 2 ^ (7 * n) + (2 ^ 7 - 1) * 2 ^ (7 * n) := by
          have := Nat.mul_le_mul_right (2 ^ (7 * n)) (Nat.le_sub_one_of_lt hg)
          omega
      _ = 2 ^ (7 * n) * 2 ^ 7 := by ring

/-- The accumulator is the payload, less what passes bit 63 (rules R9, R114). -/
theorem accBits_toNat (buf : Memory 8) (off n : Nat) (hn : n ≤ 10) :
    (accBits buf off n).toNat = payloadNat buf off n % 2 ^ 64 := by
  induction n with
  | zero => rfl
  | succ n ih =>
    have hlt := payloadNat_lt buf off n
    have hpow : (2 : Nat) ^ (7 * n) ≤ 2 ^ 63 := Nat.pow_le_pow_right (by omega) (by omega)
    have hsplit : (2 : Nat) ^ 64 = 2 ^ (7 * n) * 2 ^ (64 - 7 * n) := by rw [← pow_add]; congr 1; omega
    rw [accBits, BitVec.toNat_or, ih (by omega), Nat.mod_eq_of_lt (by omega), BitVec.toNat_shiftLeft, payload_toNat,
      payloadNat, Nat.shiftLeft_eq]
    set g := groupNat (buf.read (off + n))
    set p := payloadNat buf off n
    have hmod : g * 2 ^ (7 * n) % 2 ^ 64 = (g % 2 ^ (64 - 7 * n)) <<< (7 * n) := by
      rw [hsplit, Nat.mul_comm g, Nat.mul_mod_mul_left, Nat.shiftLeft_eq, Nat.mul_comm]
    rw [hmod, Nat.or_comm, ← Nat.shiftLeft_add_eq_or_of_lt hlt, ← hmod]
    have hle : (g % 2 ^ (64 - 7 * n)) <<< (7 * n) + p < 2 ^ 64 := by
      have hg : g % 2 ^ (64 - 7 * n) < 2 ^ (64 - 7 * n) := Nat.mod_lt _ (by positivity)
      rw [Nat.shiftLeft_eq, hsplit]
      have := Nat.mul_le_mul_right (2 ^ (7 * n)) (Nat.le_sub_one_of_lt hg)
      rw [Nat.sub_mul, Nat.one_mul, Nat.mul_comm (2 ^ (64 - 7 * n))] at this
      have : 2 ^ (7 * n) ≤ 2 ^ (7 * n) * 2 ^ (64 - 7 * n) := Nat.le_mul_of_pos_right _ (by positivity)
      omega
    rw [← hmod] at hle
    rw [← Nat.mod_eq_of_lt hle, Nat.mod_add_mod, Nat.add_comm]

theorem VarintAt.unique {buf : Memory 8} {off n n' : Nat} (h : VarintAt buf off n) (h' : VarintAt buf off n') : n = n' := by
  obtain ⟨h1, -, hc, he⟩ := h
  obtain ⟨h1', -, hc', he'⟩ := h'
  rcases Nat.lt_trichotomy n n' with hlt | heq | hlt
  · have := hc' (n - 1) (by omega)
    rw [he] at this; exact absurd this (by simp)
  · exact heq
  · have := hc (n' - 1) (by omega)
    rw [he'] at this; exact absurd this (by simp)

theorem takeByte_outside {s : State} (h : s.bufLen ≤ s.work.cur) : takeByte s = .raise .bufOutOfRange s.work.cur s := by
  rw [takeByte, bufRead, if_pos h, Flow.andThen_raise]

theorem takeByte_inside {s : State} (h : s.work.cur < s.bufLen) :
    takeByte s = .go { s with work := { s.work with b := s.buf.read s.work.cur, cur := s.work.cur + 1 } } := by
  rw [takeByte, bufRead, if_neg (by omega), Flow.andThen_go]
  rfl

/-- The decoder has read `n` bytes from `off`, all but perhaps the last continuing. -/
structure Reading (s : State) (off : Nat) : Prop where
  one_le : 1 ≤ s.work.n
  le_ten : s.work.n ≤ 10
  cur : s.work.cur = off + s.work.n
  inside : off + s.work.n ≤ s.bufLen
  sh : s.work.sh = 7 * s.work.n
  b : s.work.b = s.buf.read (off + (s.work.n - 1))
  acc : s.work.acc = accBits s.buf off s.work.n
  more : ∀ j < s.work.n - 1, continues (s.buf.read (off + j)) = true

/-- Where DECS's loop ends. -/
def Decoded (s : State) (off : Nat) : Flow → Prop
  | .go t => ∃ n wk, VarintAt s.buf off n ∧ off + n ≤ s.bufLen ∧ t = { s with work := wk } ∧ wk.cur = off + n ∧
      wk.acc = accBits s.buf off n
  | .raise f x t => (∃ wk, t = { s with work := wk }) ∧
      (f = .malformedVarint ∧ x = off + 9 ∧ OverLong s off ∨ f = .bufOutOfRange ∧ x = s.bufLen ∧ RunsOut s off)

theorem Decoded.of_work {s : State} {wk : Work} {off : Nat} {f : Flow} (h : Decoded { s with work := wk } off f) :
    Decoded s off f := by
  cases f <;> exact h

theorem Reading.more_last {s : State} {off : Nat} (h : Reading s off) (hc : continues s.work.b = true) (j : Nat)
    (hj : j < s.work.n) : continues (s.buf.read (off + j)) = true := by
  have h1 := h.one_le
  rcases (by omega : j < s.work.n - 1 ∨ j = s.work.n - 1) with hj | rfl
  · exact h.more j hj
  · rw [← h.b]; exact hc

theorem Reading.malformed {s : State} {off : Nat} (h : Reading s off) (hc : continues s.work.b = true)
    (hn : s.work.n = 10) : Decoded s off (.raise .malformedVarint (s.work.cur - 1) s) := by
  have hi := h.inside
  have hcur := h.cur
  refine ⟨⟨s.work, rfl⟩, .inl ⟨rfl, by omega, by omega, fun j hj => h.more_last hc j (by omega)⟩⟩

theorem Reading.done {s : State} {off : Nat} (h : Reading s off) (hc : ¬ continues s.work.b = true) :
    Decoded s off (.go s) :=
  ⟨s.work.n, s.work, ⟨h.one_le, h.le_ten, h.more, by rw [← h.b]; simpa using hc⟩, h.inside, rfl, h.cur, h.acc⟩

theorem decodeLoop_decoded (k : Nat) (s : State) (off : Nat) (h : Reading s off) (hk : s.work.n + k = 10) :
    Decoded s off (decodeLoop k s) := by
  induction k generalizing s with
  | zero =>
    simp only [decodeLoop]
    by_cases hc : continues s.work.b = true
    · rw [if_pos hc]; exact h.malformed hc (by omega)
    · rw [if_neg hc]; exact h.done hc
  | succ k ih =>
    simp only [decodeLoop]
    by_cases hc : continues s.work.b = true
    · rw [if_pos hc, if_neg (by show ¬ s.work.n = 10; omega)]
      have h1 := h.one_le
      have hcur := h.cur
      have hin := h.inside
      by_cases hb : s.bufLen ≤ s.work.cur
      · rw [takeByte_outside hb]
        simp only [Flow.andThen_raise]
        exact ⟨⟨s.work, rfl⟩, .inr ⟨rfl, by omega, by omega, by omega, fun j hj => h.more_last hc j (by omega)⟩⟩
      · rw [takeByte_inside (by omega)]
        simp only [Flow.andThen_go, nextGroup]
        refine Decoded.of_work (ih _ ⟨?_, ?_, ?_, ?_, ?_, ?_, ?_, ?_⟩ ?_)
        · simp
        · show s.work.n + 1 ≤ 10; omega
        · show s.work.cur + 1 = off + (s.work.n + 1); omega
        · show off + (s.work.n + 1) ≤ s.bufLen; omega
        · show s.work.sh + 7 = 7 * (s.work.n + 1); rw [h.sh]; ring
        · show s.buf.read s.work.cur = s.buf.read (off + (s.work.n + 1 - 1)); rw [hcur]; rfl
        · show s.work.acc ||| payload (s.buf.read s.work.cur) <<< s.work.sh = accBits s.buf off (s.work.n + 1)
          rw [accBits, h.acc, h.sh, hcur]
        · intro j hj; exact h.more_last hc j (by simpa using hj)
        · show s.work.n + 1 + k = 10; omega
    · rw [if_neg hc]; exact h.done hc

/-- Where DECS ends: the Value stored at DIDX, or one of the four faults, nothing changed but the working state. -/
def DecsEnds (s : State) (off didx : Nat) : Flow → Prop
  | .go t => ∃ n wk, VarintAt s.buf off n ∧ off + n ≤ s.bufLen ∧ didx < s.dstLen ∧ wk.cur = off + n ∧
      t = { s with dst := s.dst.write didx (unzigzag (accBits s.buf off n)), work := wk }
  | .raise f x t => (∃ wk, t = { s with work := wk }) ∧
      (f = .bufOutOfRange ∧ x = off ∧ s.bufLen ≤ off ∨
       f = .malformedVarint ∧ x = off + 9 ∧ OverLong s off ∨ f = .bufOutOfRange ∧ x = s.bufLen ∧ RunsOut s off ∨
       f = .dstOutOfRange ∧ x = didx ∧ s.dstLen ≤ didx ∧ ∃ n, VarintAt s.buf off n ∧ off + n ≤ s.bufLen)

theorem runDecs_ends (off didx : Nat) (s : State) : DecsEnds s off didx (runDecs off didx s) := by
  rw [runDecs]
  by_cases hb : s.bufLen ≤ off
  · rw [takeByte_outside (s := startWork off s) hb]
    exact ⟨⟨_, rfl⟩, .inl ⟨rfl, rfl, hb⟩⟩
  · rw [takeByte_inside (s := startWork off s) (by show off < s.bufLen; omega)]
    simp only [Flow.andThen_go, firstGroup, startWork]
    have hd := decodeLoop_decoded 9
      { s with work := { Work.none with
          cur := off + 1, b := s.buf.read off, acc := payload (s.buf.read off), sh := 7, n := 1 } } off
      ⟨le_refl _, by show (1 : Nat) ≤ 10; omega, rfl, by show off + 1 ≤ s.bufLen; omega, rfl, rfl, by simp [accBits],
        by intro j hj; simp at hj⟩ rfl
    cases hf : decodeLoop 9 { s with work := { Work.none with
          cur := off + 1, b := s.buf.read off, acc := payload (s.buf.read off), sh := 7, n := 1 } } with
    | raise f x t =>
      rw [hf] at hd
      obtain ⟨⟨wk, rfl⟩, hcase⟩ := hd
      have : DecsEnds s off didx (.raise f x { s with work := wk }) := by
        refine ⟨⟨wk, rfl⟩, ?_⟩
        rcases hcase with h | h
        · exact .inr (.inl h)
        · exact .inr (.inr (.inl h))
      simpa only [Config.maxVarint, Nat.reduceSub, Config.groupW, hf, Flow.andThen_raise] using this
    | go t =>
      rw [hf] at hd
      obtain ⟨n, wk, hv, hin, rfl, hcur, hacc⟩ := hd
      simp only [Flow.andThen_go]
      simp only [storeValue, dstWrite, hacc]
      by_cases hdx : didx ≥ s.dstLen
      · rw [if_pos hdx]
        exact ⟨⟨_, rfl⟩, .inr (.inr (.inr ⟨rfl, rfl, hdx, n, hv, hin⟩))⟩
      · rw [if_neg hdx]
        exact ⟨n, { wk with m := accBits s.buf off n, acc := accBits s.buf off n }, hv, hin, by omega, hcur, rfl⟩

theorem VarintAt.not_overLong {s : State} {off n : Nat} (h : VarintAt s.buf off n) : ¬ OverLong s off := by
  rintro ⟨-, hc⟩
  obtain ⟨h1, h10, -, he⟩ := h
  replace h10 : n ≤ 10 := h10
  have := hc (n - 1) (by omega)
  rw [he] at this; exact absurd this (by simp)

theorem VarintAt.not_runsOut {s : State} {off n : Nat} (h : VarintAt s.buf off n) (hin : off + n ≤ s.bufLen) :
    ¬ RunsOut s off := by
  rintro ⟨-, -, hc⟩
  obtain ⟨h1, -, -, he⟩ := h
  have := hc (n - 1) (by omega)
  rw [he] at this; exact absurd this (by simp)

theorem OverLong.not_runsOut {s : State} {off : Nat} (h : OverLong s off) : ¬ RunsOut s off := by
  rintro ⟨-, h9, -⟩
  have := h.1
  omega

/-- The state after a DECS that read a varint of `n` bytes and stored its Value. -/
def loaded (s : State) (off didx n : Nat) : State :=
  respond (.offset (off + n)) { s with dst := s.dst.write didx (unzigzag (accBits s.buf off n)) }

theorem execDecs_loads {off didx n : Nat} {s : State} (hv : VarintAt s.buf off n) (hin : off + n ≤ s.bufLen)
    (hd : didx < s.dstLen) : exec (.decs off didx) s = .next (loaded s off didx n) := by
  have h := runDecs_ends off didx s
  have h1 := hv.1
  cases hf : runDecs off didx s with
  | go t =>
    rw [hf] at h
    obtain ⟨n', wk, hv', -, -, hcur, rfl⟩ := h
    obtain rfl := hv.unique hv'
    simp only [exec, execDecs, hf, finishLoad, hcur]
    rfl
  | raise f x t =>
    rw [hf] at h
    obtain ⟨-, h | h | h | h⟩ := h
    · omega
    · exact absurd h.2.2 hv.not_overLong
    · exact absurd h.2.2 (hv.not_runsOut hin)
    · omega

/-- The state after a DECS that faulted: the response and nothing else. -/
theorem finishLoad_raise (s : State) (f : Fault) (x : Nat) (wk : Work) :
    finishLoad s (.raise f x { s with work := wk }) = .next (respond (.fault f x) s) := by
  simp [finishLoad, takeFault, settleBuf, respond]

theorem execDecs_outside {off didx : Nat} {s : State} (hb : s.bufLen ≤ off) :
    exec (.decs off didx) s = .next (respond (.fault .bufOutOfRange off) s) := by
  have h := runDecs_ends off didx s
  cases hf : runDecs off didx s with
  | go t =>
    rw [hf] at h
    obtain ⟨n', wk, hv', hin, -⟩ := h
    have := hv'.1
    omega
  | raise f x t =>
    rw [hf] at h
    obtain ⟨⟨wk, rfl⟩, h | h | h | h⟩ := h
    · obtain ⟨rfl, rfl, -⟩ := h
      rw [exec, execDecs, hf, finishLoad_raise]
    · have := h.2.2.1; omega
    · have := h.2.2.1; omega
    · obtain ⟨-, -, -, n', hv', hin⟩ := h
      have := hv'.1
      omega

theorem execDecs_overLong {off didx : Nat} {s : State} (ho : OverLong s off) :
    exec (.decs off didx) s = .next (respond (.fault .malformedVarint (off + 9)) s) := by
  have h := runDecs_ends off didx s
  have h1 := ho.1
  cases hf : runDecs off didx s with
  | go t =>
    rw [hf] at h
    obtain ⟨n', wk, hv', -⟩ := h
    exact absurd ho hv'.not_overLong
  | raise f x t =>
    rw [hf] at h
    obtain ⟨⟨wk, rfl⟩, h | h | h | h⟩ := h
    · omega
    · obtain ⟨rfl, rfl, -⟩ := h
      rw [exec, execDecs, hf, finishLoad_raise]
    · exact absurd h.2.2 ho.not_runsOut
    · obtain ⟨-, -, -, n', hv', -⟩ := h
      exact absurd ho hv'.not_overLong

theorem execDecs_runsOut {off didx : Nat} {s : State} (hr : RunsOut s off) :
    exec (.decs off didx) s = .next (respond (.fault .bufOutOfRange s.bufLen) s) := by
  have h := runDecs_ends off didx s
  have h1 := hr.1
  cases hf : runDecs off didx s with
  | go t =>
    rw [hf] at h
    obtain ⟨n', wk, hv', hin, -⟩ := h
    exact absurd hr (hv'.not_runsOut hin)
  | raise f x t =>
    rw [hf] at h
    obtain ⟨⟨wk, rfl⟩, h | h | h | h⟩ := h
    · omega
    · exact absurd hr h.2.2.not_runsOut
    · obtain ⟨rfl, rfl, -⟩ := h
      rw [exec, execDecs, hf, finishLoad_raise]
    · obtain ⟨-, -, -, n', hv', hin⟩ := h
      exact absurd hr (hv'.not_runsOut hin)

theorem execDecs_noRoom {off didx n : Nat} {s : State} (hv : VarintAt s.buf off n) (hin : off + n ≤ s.bufLen)
    (hd : s.dstLen ≤ didx) : exec (.decs off didx) s = .next (respond (.fault .dstOutOfRange didx) s) := by
  have h := runDecs_ends off didx s
  have h1 := hv.1
  cases hf : runDecs off didx s with
  | go t =>
    rw [hf] at h
    obtain ⟨n', wk, -, -, hd', -⟩ := h
    omega
  | raise f x t =>
    rw [hf] at h
    obtain ⟨⟨wk, rfl⟩, h | h | h | h⟩ := h
    · omega
    · exact absurd h.2.2 hv.not_overLong
    · exact absurd h.2.2 (hv.not_runsOut hin)
    · obtain ⟨rfl, rfl, -⟩ := h
      rw [exec, execDecs, hf, finishLoad_raise]

/-- The four ways a DECS can find BUF (rule R112). -/
theorem decs_cases (s : State) (off : Nat) :
    s.bufLen ≤ off ∨ OverLong s off ∨ RunsOut s off ∨ ∃ n, VarintAt s.buf off n ∧ off + n ≤ s.bufLen := by
  have h := runDecs_ends off 0 s
  cases hf : runDecs off 0 s with
  | go t => rw [hf] at h; obtain ⟨n, -, hv, hin, -⟩ := h; exact .inr (.inr (.inr ⟨n, hv, hin⟩))
  | raise f x t =>
    rw [hf] at h
    obtain ⟨-, h | h | h | h⟩ := h
    · exact .inl h.2.2
    · exact .inr (.inl h.2.2)
    · exact .inr (.inr (.inl h.2.2))
    · exact .inr (.inr (.inr h.2.2.2))

/-! What the encoder writes, the decoder reads (rules R104, R116). -/

theorem varintLayout_continues (b : Byte) (m : Value) (j : Nat) (h : b.toNat = varintLayout m j) :
    continues b = decide (j + 1 < usize m) := by
  rw [Bool.eq_iff_iff, continues_iff, h, varintLayout, decide_eq_true_eq]
  have : m.toNat / 2 ^ (7 * j) % 2 ^ 7 < 2 ^ 7 := Nat.mod_lt _ (by omega)
  split <;> omega

theorem varintLayout_group (b : Byte) (m : Value) (j : Nat) (h : b.toNat = varintLayout m j) :
    groupNat b = m.toNat / 2 ^ (7 * j) % 2 ^ 7 := by
  rw [groupNat, h, varintLayout]
  split <;> omega

theorem HoldsVarint.varintAt {buf : Memory 8} {off : Nat} {m : Value} (h : HoldsVarint buf off m) :
    VarintAt buf off (usize m) := by
  have h1 := usize_pos m
  refine ⟨h1, usize_le_maxVarint m, fun j hj => ?_, ?_⟩
  · rw [varintLayout_continues _ m j (h j (by omega))]; simp; omega
  · rw [varintLayout_continues _ m _ (h (usize m - 1) (by omega))]; simp; omega

theorem HoldsVarint.payloadNat_eq {buf : Memory 8} {off : Nat} {m : Value} (h : HoldsVarint buf off m) (n : Nat)
    (hn : n ≤ usize m) : payloadNat buf off n = m.toNat % 2 ^ (7 * n) := by
  induction n with
  | zero => simp [payloadNat, Nat.mod_one]
  | succ n ih =>
    rw [payloadNat, ih (by omega), varintLayout_group _ m n (h n (by omega)),
      show 7 * (n + 1) = 7 * n + 7 by ring, pow_add, Nat.mod_mul, Nat.mul_comm (2 ^ (7 * n))]

/-- Payload recovery (rule R116 item 1). -/
theorem HoldsVarint.accBits_eq {buf : Memory 8} {off : Nat} {m : Value} (h : HoldsVarint buf off m) :
    accBits buf off (usize m) = m := by
  apply BitVec.eq_of_toNat_eq
  rw [accBits_toNat _ _ _ (usize_le_maxVarint m), h.payloadNat_eq _ le_rfl, Nat.mod_eq_of_lt (usize_spec m).1,
    Nat.mod_eq_of_lt m.isLt]

theorem holdsVarint_writeAll (buf : Memory 8) (off : Nat) (m : Value) :
    HoldsVarint (Memory.writeAll buf off (varintBytes m)) off m := by
  intro j hj
  rw [Memory.read_writeAll, dif_pos (by rw [length_varintBytes]; omega)]
  simp only [Nat.add_sub_cancel_left]
  exact getElem_varintBytes _ _ _

end Sys2Proof.Machine
end

