-- ==== Sys2Proof/Laws/Exec.lean ====
section
/-! SUPPORT. Everything a command can do, said once (`exec_ends`), and what each of its ends leaves. -/

namespace Sys2Proof.Machine

theorem sizeuCount_eq (v : Value) : sizeuCount v = usize v := by
  have hlt := v.isLt
  rw [sizeuCount, sizeuCountWith, BitVec.msb_eq_decide]
  by_cases h : 2 ^ (64 - 1) ≤ v.toNat
  · rw [if_pos (by simpa using h), Config.sizeuNeg, eq_comm]
    exact usize_unique v 10 (by omega) (.inr ⟨by omega, by omega⟩)
  · rw [if_neg (by simpa using h)]

/-- Where an encode command starts and the bytes it writes if they fit. -/
def encoderBytes : Instr → State → Option (Nat × List Byte)
  | .encf32 w off, _ => some (off, fixedBytes w)
  | .encu v off, _ => some (off, varintBytes v)
  | .encub cnt off, s => some (off, encubBytes cnt s)
  | .encs v off, _ => some (off, varintBytes (zigzag v))
  | .sizeu _, _ => none
  | .sizes _, _ => none
  | .decs _ _, _ => none

/-- Every way a command can end. -/
inductive Ends (s : State) : Instr → State → Prop
  | sizeu (v : Value) : Ends s (.sizeu v) (respond (.size (usize v)) s)
  | sizes (v : Value) : Ends s (.sizes v) (respond (.size (usize (zigzag v))) s)
  | stored {i : Instr} {off : Nat} {bs : List Byte} : encoderBytes i s = some (off, bs) → BytesFit s off bs →
      (∀ cnt off, i = .encub cnt off → cnt ≤ s.valsLen) → Ends s i (stored s off bs)
  | storeFaulted {i : Instr} {off : Nat} {bs : List Byte} : encoderBytes i s = some (off, bs) → ¬ BytesFit s off bs →
      Ends s i (storeFaulted s off bs)
  | sourceFaulted {cnt off : Nat} : s.valsLen < cnt → BytesFit s off (encubBytes cnt s) →
      Ends s (.encub cnt off) (sourceFaulted s off (encubBytes cnt s))
  | loaded {off didx n : Nat} : VarintAt s.buf off n → off + n ≤ s.bufLen → didx < s.dstLen →
      Ends s (.decs off didx) (loaded s off didx n)
  | outside {off didx : Nat} : s.bufLen ≤ off → Ends s (.decs off didx) (respond (.fault .bufOutOfRange off) s)
  | overLong {off didx : Nat} : OverLong s off →
      Ends s (.decs off didx) (respond (.fault .malformedVarint (off + 9)) s)
  | runsOut {off didx : Nat} : RunsOut s off → Ends s (.decs off didx) (respond (.fault .bufOutOfRange s.bufLen) s)
  | noRoom {off didx n : Nat} : VarintAt s.buf off n → off + n ≤ s.bufLen → s.dstLen ≤ didx →
      Ends s (.decs off didx) (respond (.fault .dstOutOfRange didx) s)

/-- Every command ends in a next state, in one of these ways. -/
theorem exec_ends (i : Instr) (s : State) : ∃ t, exec i s = .next t ∧ Ends s i t := by
  cases i with
  | sizeu v => exact ⟨_, by rw [exec, execSizeu, sizeuCount_eq], .sizeu v⟩
  | sizes v => exact ⟨_, rfl, .sizes v⟩
  | encf32 w off =>
    by_cases h : BytesFit s off (fixedBytes w)
    · exact ⟨_, execEncf32_fits h, .stored rfl h (by simp)⟩
    · exact ⟨_, execEncf32_faults h, .storeFaulted rfl h⟩
  | encu v off =>
    by_cases h : BytesFit s off (varintBytes v)
    · exact ⟨_, execEncu_fits h, .stored rfl h (by simp)⟩
    · exact ⟨_, execEncu_faults h, .storeFaulted rfl h⟩
  | encs v off =>
    by_cases h : BytesFit s off (varintBytes (zigzag v))
    · exact ⟨_, execEncs_fits h, .stored rfl h (by simp)⟩
    · exact ⟨_, execEncs_faults h, .storeFaulted rfl h⟩
  | encub cnt off =>
    by_cases h : BytesFit s off (encubBytes cnt s)
    · by_cases hc : cnt ≤ s.valsLen
      · exact ⟨_, execEncub_fits hc h, .stored rfl h (by simp; omega)⟩
      · exact ⟨_, execEncub_source (by omega) h, .sourceFaulted (by omega) h⟩
    · exact ⟨_, execEncub_faults h, .storeFaulted rfl h⟩
  | decs off didx =>
    rcases decs_cases s off with h | h | h | ⟨n, hv, hin⟩
    · exact ⟨_, execDecs_outside h, .outside h⟩
    · exact ⟨_, execDecs_overLong h, .overLong h⟩
    · exact ⟨_, execDecs_runsOut h, .runsOut h⟩
    · by_cases hd : didx < s.dstLen
      · exact ⟨_, execDecs_loads hv hin hd, .loaded hv hin hd⟩
      · exact ⟨_, execDecs_noRoom hv hin (by omega), .noRoom hv hin (by omega)⟩

theorem ends_of_exec {i : Instr} {s t : State} (h : exec i s = .next t) : Ends s i t := by
  obtain ⟨u, hu, he⟩ := exec_ends i s
  rw [hu, Host.Outcome.next.injEq] at h
  exact h ▸ he

/-- The converse of `ends_of_exec`: each end is what exec answers under its conditions. -/
theorem Ends.exec_eq {i : Instr} {s t : State} (h : Ends s i t) : exec i s = .next t := by
  cases h with
  | sizeu v => rw [exec, execSizeu, sizeuCount_eq]
  | sizes v => rfl
  | stored h1 h2 h3 =>
    cases i <;> simp only [encoderBytes, Option.some.injEq, Prod.mk.injEq, reduceCtorEq] at h1 <;> obtain ⟨rfl, rfl⟩ := h1
    · exact execEncf32_fits h2
    · exact execEncu_fits h2
    · exact execEncub_fits (h3 _ _ rfl) h2
    · exact execEncs_fits h2
  | storeFaulted h1 h2 =>
    cases i <;> simp only [encoderBytes, Option.some.injEq, Prod.mk.injEq, reduceCtorEq] at h1 <;> obtain ⟨rfl, rfl⟩ := h1
    · exact execEncf32_faults h2
    · exact execEncu_faults h2
    · exact execEncub_faults h2
    · exact execEncs_faults h2
  | sourceFaulted h1 h2 => exact execEncub_source h1 h2
  | loaded h1 h2 h3 => exact execDecs_loads h1 h2 h3
  | outside h => exact execDecs_outside h
  | overLong h => exact execDecs_overLong h
  | runsOut h => exact execDecs_runsOut h
  | noRoom h1 h2 h3 => exact execDecs_noRoom h1 h2 h3

/-! The fields of the ends of an encode command. -/

theorem answered_respond (r : Response) (s : State) : Answered r s (respond r s) :=
  ⟨rfl, rfl, rfl, rfl, rfl, rfl, rfl, rfl, rfl, rfl⟩

theorem answered_stored (s : State) (off : Nat) (bs : List Byte) :
    Answered (.offset (off + bs.length)) s (stored s off bs) := ⟨rfl, rfl, rfl, rfl, rfl, rfl, rfl, rfl, rfl, rfl⟩

theorem answered_storeFaulted (s : State) (off : Nat) (bs : List Byte) :
    Answered (.fault .bufOutOfRange (firstOutside s off)) s (storeFaulted s off bs) := by
  have : firstOutside s off = max off s.bufLen := by unfold firstOutside; split <;> omega
  rw [this]
  exact ⟨rfl, rfl, rfl, rfl, rfl, rfl, rfl, rfl, rfl, rfl⟩

theorem answered_sourceFaulted (s : State) (off : Nat) (bs : List Byte) :
    Answered (.fault .srcOutOfRange s.valsLen) s (sourceFaulted s off bs) :=
  ⟨rfl, rfl, rfl, rfl, rfl, rfl, rfl, rfl, rfl, rfl⟩

theorem answered_loaded (s : State) (off didx n : Nat) : Answered (.offset (off + n)) s (loaded s off didx n) :=
  ⟨rfl, rfl, rfl, rfl, rfl, rfl, rfl, rfl, rfl, rfl⟩

theorem read_stored (s : State) (off : Nat) (bs : List Byte) (a : Nat) :
    (stored s off bs).buf.read a = if h : off ≤ a ∧ a - off < bs.length then bs[a - off] else s.buf.read a :=
  Memory.read_writeAll _ _ _ _

/-- After a fault each byte is old or the one written, and only below the end of BUF (rule R127). -/
theorem read_storeFaulted (s : State) (off : Nat) (bs : List Byte) (a : Nat) :
    (storeFaulted s off bs).buf.read a = s.buf.read a ∨
      ∃ h : a - off < bs.length, off ≤ a ∧ a < s.bufLen ∧ (storeFaulted s off bs).buf.read a = bs[a - off] := by
  simp only [storeFaulted, takeFault_buf, Memory.read_settle, Memory.read_writeAll, List.length_take, List.getElem_take]
  split
  · exact .inl rfl
  · split
    next h => exact .inr ⟨by omega, h.1, by omega, rfl⟩
    · exact .inl rfl

theorem read_sourceFaulted (s : State) (off : Nat) (bs : List Byte) (a : Nat) :
    (sourceFaulted s off bs).buf.read a = s.buf.read a ∨
      ∃ h : a - off < bs.length, off ≤ a ∧ (sourceFaulted s off bs).buf.read a = bs[a - off] := by
  simp only [sourceFaulted, takeFault_buf, Memory.read_settle, Memory.read_writeAll]
  split
  · exact .inl rfl
  · split
    next h => exact .inr ⟨h.2, h.1, rfl⟩
    · exact .inl rfl

theorem getElem_batchLayout (vals : Memory 64) (k p : Nat) (hp : p < (batchBytes vals 0 k).length) :
    ((batchBytes vals 0 k)[p]).toNat = batchLayout vals k p := by
  induction k with
  | zero => simp [batchBytes] at hp
  | succ k ih =>
    have hl := length_batchBytes vals k
    simp only [batchBytes_snoc, Nat.zero_add, List.length_append] at hp ⊢
    rw [batchLayout]
    by_cases h : p < batchSize vals k
    · rw [if_pos h, List.getElem_append_left (by omega), ih]
    · rw [if_neg h, List.getElem_append_right (by omega)]
      simp only [hl]
      exact getElem_varintBytes _ _ _

/-- An encode command whose bytes fit stores them (rules R60, R62, R89 items 1, 2, 6). -/
theorem storesBytes_of_stored {i : Instr} {s : State} {off : Nat} {bs : List Byte} {layout : Nat → Nat}
    (h : exec i s = .next (stored s off bs)) (hl : ∀ (j : Nat) (hj : j < bs.length), (bs[j]).toNat = layout j) :
    StoresBytes i s off bs.length layout := by
  refine ⟨_, h, answered_stored _ _ _, rfl, rfl, fun j hj => ?_, fun a ha => ?_⟩
  · rw [read_stored, dif_pos (by omega)]
    simp only [Nat.add_sub_cancel_left]
    exact hl j hj
  · rw [read_stored, dif_neg (by omega)]

theorem faultsStoring_of_storeFaulted {i : Instr} {s : State} {off : Nat} {bs : List Byte} {layout : Nat → Nat}
    (h : exec i s = .next (storeFaulted s off bs)) (hl : ∀ (j : Nat) (hj : j < bs.length), (bs[j]).toNat = layout j) :
    FaultsStoring i s off s.bufLen .bufOutOfRange (firstOutside s off) layout := by
  refine ⟨_, h, answered_storeFaulted _ _ _, rfl, fun a h1 h2 => ?_, fun a ha => ?_⟩
  · rcases read_storeFaulted s off bs a with he | ⟨hj, -, -, he⟩
    · exact .inl he
    · exact .inr (by rw [he, hl])
  · rcases read_storeFaulted s off bs a with he | ⟨hj, h1, h2, -⟩
    · exact he
    · omega

theorem faultsStoring_of_sourceFaulted {i : Instr} {s : State} {off : Nat} {bs : List Byte} {layout : Nat → Nat}
    (h : exec i s = .next (sourceFaulted s off bs)) (hl : ∀ (j : Nat) (hj : j < bs.length), (bs[j]).toNat = layout j) :
    FaultsStoring i s off (off + bs.length) .srcOutOfRange s.valsLen layout := by
  refine ⟨_, h, answered_sourceFaulted _ _ _, rfl, fun a h1 h2 => ?_, fun a ha => ?_⟩
  · rcases read_sourceFaulted s off bs a with he | ⟨hj, -, he⟩
    · exact .inl he
    · exact .inr (by rw [he, hl])
  · rcases read_sourceFaulted s off bs a with he | ⟨hj, h1, -⟩
    · exact he
    · omega

/-- Whatever the command, it answers (rule R31). -/
theorem Ends.answered {i : Instr} {s t : State} (h : Ends s i t) : ∃ r, Answered r s t := by
  cases h
  case stored => exact ⟨_, answered_stored _ _ _⟩
  case storeFaulted => exact ⟨_, answered_storeFaulted _ _ _⟩
  case sourceFaulted => exact ⟨_, answered_sourceFaulted _ _ _⟩
  case loaded => exact ⟨_, answered_loaded _ _ _ _⟩
  all_goals exact ⟨_, answered_respond _ _⟩

/-- A batch of `k` elements takes `k` to `10 k` bytes (rule R93). -/
theorem batchSize_bounds (vals : Memory 64) (k : Nat) : k ≤ batchSize vals k ∧ batchSize vals k ≤ 10 * k := by
  induction k with
  | zero => simp [batchSize]
  | succ k ih => have := usize_pos (vals.read k); have := usize_le_maxVarint (vals.read k); simp only [batchSize]; omega

theorem bytesFit_encub (cnt off : Nat) (s : State) :
    BytesFit s off (encubBytes cnt s) ↔ min cnt s.valsLen = 0 ∨ off + batchSize s.vals (min cnt s.valsLen) ≤ s.bufLen := by
  have := length_encubBytes cnt s
  have hp := batchSize_bounds s.vals (min cnt s.valsLen)
  unfold BytesFit
  rw [this, ← List.length_eq_zero_iff, this]
  omega

theorem stored_response (s : State) (off : Nat) (bs : List Byte) :
    (stored s off bs).response = some (.offset (off + bs.length)) := rfl

/-- ENCU succeeds exactly when its bytes fit. -/
theorem execEncu_cases (v : Value) (off : Nat) (s : State) :
    (off + usize v ≤ s.bufLen ∧ exec (.encu v off) s = .next (stored s off (varintBytes v)) ∧
      (stored s off (varintBytes v)).response = some (.offset (off + usize v))) ∨
    (s.bufLen < off + usize v ∧ exec (.encu v off) s = .next (storeFaulted s off (varintBytes v)) ∧
      (storeFaulted s off (varintBytes v)).response = some (.fault .bufOutOfRange (firstOutside s off))) := by
  by_cases hf : off + usize v ≤ s.bufLen
  · exact .inl ⟨hf, execEncu_fits (bytesFit_varint.2 hf), by rw [stored_response, length_varintBytes]⟩
  · exact .inr ⟨by omega, execEncu_faults fun hh => hf (bytesFit_varint.1 hh), (answered_storeFaulted _ _ _).response⟩

end Sys2Proof.Machine
end

