-- ==== Sys2Proof/Laws/Step.lean ====
section
/-! SUPPORT. What a step does, by what is in flight. -/

namespace Sys2Proof.Machine

/-- With a command in flight and no reset landing now, a step runs the command. -/
theorem step_command {s : State} {c : Cmd} (h : s.cmd = some c) (hr : resetPending s = false) :
    step s = runCommand c s := by simp [step, h, hr]

theorem resetPending_withoutLeadingResets (l : List HostMove) (s : State) (h : s.host = withoutLeadingResets l) :
    resetPending s = false := by
  induction l with
  | nil => simp [resetPending, h, withoutLeadingResets]
  | cons m l ih =>
    cases m with
    | reset => exact ih h
    | _ => simp [resetPending, h, withoutLeadingResets]

/-- A command, legal or not, ends in a next state. -/
theorem runCommand_next (c : Cmd) (s : State) : ∃ t, runCommand c s = .next t := by
  rw [runCommand]
  cases decode c with
  | error e => exact ⟨_, rfl⟩
  | ok i => obtain ⟨t, ht, -⟩ := exec_ends i s; exact ⟨t, ht⟩

theorem hostMove_not_fault (m : HostMove) (s : State) (f : Fault) : hostMove m s ≠ .fault f := by
  cases m <;> simp only [hostMove] <;> (try split) <;> simp

/-- An idle block gives the host its turn. -/
theorem step_idle {s : State} (h : s.cmd = none) : step s = hostTurn s := by simp [step, h]

/-- A reset lands whether or not a command is in flight. -/
theorem step_reset {s : State} {rest : List HostMove} (h : s.host = .reset :: rest) :
    step s = .next (acceptReset { s with host := rest }) := by
  have h1 : hostTurn s = .next (acceptReset { s with host := rest }) := by rw [hostTurn, h]; rfl
  unfold step
  split
  · rw [if_pos (by simp [resetPending, h]), h1]
  · exact h1

end Sys2Proof.Machine
end

