-- ==== Sys2Proof/Laws/HostMoves.lean ====
section
/-! SUPPORT. What the host's moves and a reset leave: contents attached, and the memories after a command was cut short. -/

namespace Sys2Proof.Machine

/-- A container attached reads as its contents list does. -/
theorem Memory.read_ofContents {w : Nat} (cs : List (Nat × BitVec w)) (a : Nat) :
    (Memory.ofContents cs).read a = Memory.read cs a := by
  induction cs with
  | nil => rfl
  | cons c cs ih => rw [Memory.ofContents, Memory.read_write, ih, Memory.read_cons]; simp only [eq_comm]

theorem attachCheck_eq_none {w : Nat} {offW len : Nat} {cs : List (Nat × BitVec w)} :
    attachCheck offW len cs = none ↔ len < Config.indexBound offW ∧ ∀ c ∈ cs, c.1 < len := by
  unfold attachCheck
  split_ifs with h1 h2
  · simp; omega
  · simpa using ⟨by omega, fun a b hc => by simpa using List.all_eq_true.1 h2 (a, b) hc⟩
  · simp only [false_iff]
    rintro ⟨-, h⟩
    exact h2 (List.all_eq_true.2 fun c hc => by simpa using h c hc)

/-- The bytes an encode command writes before it ends, whether they all fit or not. -/
def written (s : State) (off : Nat) (bs : List Byte) : List Byte :=
  if BytesFit s off bs then bs else bs.take (s.bufLen - off)

theorem bytesFit_written (s : State) (off : Nat) (bs : List Byte) : BytesFit s off (written s off bs) := by
  unfold written
  split
  · assumption
  · by_cases h : s.bufLen ≤ off
    · left; simp [show s.bufLen - off = 0 by omega]
    · right; simp; omega

/-- Every way a command cut short can leave the machine (rule R140): untouched, or the bytes of BUF or the element of DST it
would have written each old or new by a draw. -/
inductive Aborted (s : State) : Instr → State → Prop
  | nothing (i : Instr) : Aborted s i s
  | stores {i : Instr} {off : Nat} {bs : List Byte} (wk : Work) : encoderBytes i s = some (off, bs) →
      Aborted s i { s with
        buf := Memory.settle s.buf (Memory.writeAll s.buf off (written s off bs)) s.draws off (written s off bs).length
        work := wk
        draws := s.draws + (written s off bs).length }
  | loads {off didx n : Nat} (wk : Work) : VarintAt s.buf off n → off + n ≤ s.bufLen → didx < s.dstLen →
      Aborted s (.decs off didx) { s with
        dst := Memory.settle s.dst (s.dst.write didx (unzigzag (accBits s.buf off n))) s.draws didx 1
        work := wk
        draws := s.draws + 1 }

theorem RunWrote.aborted {i : Instr} {s : State} {off : Nat} {bs : List Byte} {f : Flow} (h : RunWrote s off bs f)
    (hi : encoderBytes i s = some (off, bs)) : Aborted s i (abortStores s off f) := by
  cases f with
  | go t =>
    obtain ⟨hf, wk, rfl, hc, -⟩ := h
    simp only [startWork_work] at hc
    have := Aborted.stores wk hi
    rw [show written s off bs = bs from if_pos hf] at this
    simp only [abortStores, settleBuf, Flow.state_go, hc, Nat.add_sub_cancel_left]
    exact this
  | raise g x t =>
    obtain ⟨⟨hne, hlt⟩, -, hx, wk, rfl, hc⟩ := h
    simp only [startWork_work, startWork_bufLen] at hx hlt
    have := Aborted.stores wk hi
    rw [show written s off bs = bs.take (s.bufLen - off) from if_neg (by rintro (h | h); exacts [hne h, by omega]),
      show (bs.take (s.bufLen - off)).length = x - off by simp; omega] at this
    simp only [abortStores, settleBuf, Flow.state_raise, hc]
    exact this

/-- What a reset leaves of a command cut short (rule R140). -/
theorem abortInstr_aborted (i : Instr) (s : State) : Aborted s i (abortInstr s i) := by
  cases i with
  | sizeu v => exact .nothing _
  | sizes v => exact .nothing _
  | encf32 w off => exact (runEncf32_wrote w off s).aborted rfl
  | encu v off => exact (runEncu_wrote v off s).aborted rfl
  | encs v off => exact (runEncs_wrote v off s).aborted rfl
  | encub cnt off =>
    have hb := runEncub_batched cnt off s
    simp only [abortInstr]
    by_cases hf : BytesFit s off (encubBytes cnt s)
    · rw [if_pos hf] at hb
      obtain ⟨wk, hc, hr⟩ := hb
      have := Aborted.stores (s := s) (i := .encub cnt off) wk rfl
      rw [show written s off (encubBytes cnt s) = encubBytes cnt s from if_pos hf] at this
      rw [hr]
      split <;> simpa only [abortStores, settleBuf, Flow.state_go, Flow.state_raise, hc, Nat.add_sub_cancel_left] using this
    · rw [if_neg hf] at hb
      obtain ⟨wk, hc, hr⟩ := hb
      have := Aborted.stores (s := s) (i := .encub cnt off) wk rfl
      have hf' : ¬ (encubBytes cnt s = [] ∨ off + (encubBytes cnt s).length ≤ s.bufLen) := hf
      rw [show written s off (encubBytes cnt s) = (encubBytes cnt s).take (s.bufLen - off) from if_neg hf,
        show ((encubBytes cnt s).take (s.bufLen - off)).length = wk.cur - off by rw [hc]; simp; omega] at this
      rw [hr]
      simpa only [abortStores, settleBuf, Flow.state_raise] using this
  | decs off didx =>
    have he := runDecs_ends off didx s
    simp only [abortInstr]
    cases hf : runDecs off didx s with
    | raise f x t => exact .nothing _
    | go t =>
      rw [hf] at he
      obtain ⟨n, wk, hv, hin, hd, hc, rfl⟩ := he
      exact .loads wk hv hin hd

/-- Cutting a command short touches BUF, DST, the working state and the draws only. -/
theorem Aborted.frame {s t : State} {i : Instr} (h : Aborted s i t) :
    t.offW = s.offW ∧ t.bufLen = s.bufLen ∧ t.valsLen = s.valsLen ∧ t.vals = s.vals ∧ t.dstLen = s.dstLen ∧ t.cmd = s.cmd ∧
      t.response = s.response ∧ t.host = s.host ∧ t.received = s.received := by
  cases h <;> exact ⟨rfl, rfl, rfl, rfl, rfl, rfl, rfl, rfl, rfl⟩

/-- It keeps the memories canonical and inside their capacities. -/
theorem Aborted.memories {s t : State} {i : Instr} (h : Aborted s i t) (hb : s.buf.wf) (hb' : s.buf.within s.bufLen)
    (hd : s.dst.wf) (hd' : s.dst.within s.dstLen) :
    t.buf.wf ∧ t.buf.within t.bufLen ∧ t.dst.wf ∧ t.dst.within t.dstLen := by
  cases h with
  | nothing => exact ⟨hb, hb', hd, hd'⟩
  | @stores _ off bs wk hi =>
    refine ⟨Memory.settle_wf (Memory.writeAll_wf hb _ _) _ _ _, ?_, hd, hd'⟩
    have hw := Memory.writeAll_within hb' (bytesFit_written s off bs)
    rcases bytesFit_written s off bs with h0 | h1
    · simp only [h0, List.length_nil, Memory.settle_zero, Memory.writeAll]; exact hb'
    · exact Memory.settle_within hw h1 _
  | loads wk hv hin hdx =>
    exact ⟨hb, hb', Memory.settle_wf (Memory.write_wf hd _ _) _ _ _,
      Memory.settle_within (Memory.write_within hd' hdx _) (by omega) _⟩

/-- The command in flight, if it is one, is cut short; else nothing happens. -/
theorem abortInFlight_cases (s : State) :
    abortInFlight s = s ∨ ∃ c i, s.cmd = some c ∧ decode c = .ok i ∧ abortInFlight s = abortInstr s i := by
  unfold abortInFlight
  cases hc : s.cmd with
  | none => exact .inl rfl
  | some c =>
    cases hd : decode c with
    | error e => exact .inl (by simp only [hd])
    | ok i => exact .inr ⟨c, i, rfl, hd, by simp only [hd]⟩

end Sys2Proof.Machine
end

