-- ==== Sys2Proof/Laws/PerInstr.lean ====
section
/-! SUPPORT. A law said once per command: the record the encoder writes holds the OP and each operand in its field, and zero in
the fields the command does not use (rules R66, R67, R68, R74). -/

namespace Sys2Proof.Laws

/-- The AUX field of a command (rule R67): CNT of ENCUB, DIDX of DECS, else unused. -/
def auxField : Instr → Nat
  | .sizeu _ => 0
  | .encf32 _ _ => 0
  | .encu _ _ => 0
  | .encub cnt _ => cnt
  | .sizes _ => 0
  | .encs _ _ => 0
  | .decs _ didx => didx

/-- The OFF field of a command (rule R67), unused by SIZEU and SIZES. -/
def offField : Instr → Nat
  | .sizeu _ => 0
  | .encf32 _ off => off
  | .encu _ off => off
  | .encub _ off => off
  | .sizes _ => 0
  | .encs _ off => off
  | .decs off _ => off

/-- The VAL field of a command, as a number (rule R67), unused by ENCUB and DECS. -/
def valField : Instr → Nat
  | .sizeu v => v.toNat
  | .encf32 w _ => w.toNat
  | .encu v _ => v.toNat
  | .encub _ _ => 0
  | .sizes v => v.toNat
  | .encs v _ => v.toNat
  | .decs _ _ => 0

/-- The encoder puts the OP and the operands of a command in their fields and zero in the others, and the record of a well-formed
command fits CMD, whatever OFF_W. -/
def EncodedFields.Statement (i : Instr) : Prop :=
  (encode i).op = i.opcode ∧ (encode i).aux = auxField i ∧ (encode i).off = offField i ∧ (encode i).val.toNat = valField i ∧
    ∀ offW, i.wellFormed offW = true → (encode i).fits offW = true

theorem indexFits_zero (offW : Nat) : indexFits offW 0 = true := by simp [indexFits, Config.indexBound]

/-- A record whose AUX is zero fits when its OFF does. -/
theorem fits_off {offW : Nat} {op : BitVec 8} {off : Nat} {val : Value} (h : indexFits offW off = true) :
    ({ op, aux := 0, off, val } : Cmd).fits offW = true := by simp [Cmd.fits, indexFits_zero, h]

theorem EncodedFields.sizeu (v : Value) : EncodedFields.Statement (.sizeu v) :=
  ⟨rfl, rfl, rfl, rfl, fun offW _ => fits_off (indexFits_zero offW)⟩

theorem EncodedFields.encf32 (w : Fixed) (off : Nat) : EncodedFields.Statement (.encf32 w off) :=
  ⟨rfl, rfl, rfl, by
    have := w.isLt
    simp only [encode, valField, BitVec.toNat_setWidth]; omega, fun _ h => fits_off h⟩

theorem EncodedFields.encu (v : Value) (off : Nat) : EncodedFields.Statement (.encu v off) :=
  ⟨rfl, rfl, rfl, rfl, fun _ h => fits_off h⟩

theorem EncodedFields.encub (cnt off : Nat) : EncodedFields.Statement (.encub cnt off) :=
  ⟨rfl, rfl, rfl, rfl, fun _ h => h⟩

theorem EncodedFields.sizes (v : Value) : EncodedFields.Statement (.sizes v) :=
  ⟨rfl, rfl, rfl, rfl, fun offW _ => fits_off (indexFits_zero offW)⟩

theorem EncodedFields.encs (v : Value) (off : Nat) : EncodedFields.Statement (.encs v off) :=
  ⟨rfl, rfl, rfl, rfl, fun _ h => fits_off h⟩

theorem EncodedFields.decs (off didx : Nat) : EncodedFields.Statement (.decs off didx) :=
  ⟨rfl, rfl, rfl, rfl, fun _ h => Bool.and_eq_true_iff.2 (Bool.and_eq_true_iff.1 h).symm⟩

end Sys2Proof.Laws
end

