-- ==== Sys2Proof/Tests/Slice0.lean ====
section
/-! SUPPORT. The model's own tests: what WellFormed refuses, CMD words written out from rules R66 and R68, vectors of
95_test_vectors.md run for one step, and a witness for the hypotheses of each statement. Expected results are the spec's. -/

namespace Sys2Proof.Tests

open Sys2Proof.Machine

/-! ## WellFormed: an ill-formed command for each check (rule R10), with OFF_W = 32 and once with OFF_W = 16 -/

theorem test_encf32_off_too_wide : (Instr.encf32 0 (2 ^ 32)).wellFormed 32 = false := by decide
/-- Well-formed for one OFF_W and not for another. -/
theorem test_width_is_an_argument : (Instr.encu 0 (2 ^ 16)).wellFormed 16 = false ∧
    (Instr.encu 0 (2 ^ 16)).wellFormed 17 = true := by decide
theorem test_record_too_wide : (Cmd.mk 0x01 (2 ^ 32) 0 0).fits 32 = false ∧ (Cmd.mk 0x01 0 (2 ^ 32) 0).fits 32 = false := by decide
theorem test_encu_off_too_wide : (Instr.encu 0 (2 ^ 32)).wellFormed 32 = false := by decide
theorem test_encub_cnt_too_wide : (Instr.encub (2 ^ 32) 0).wellFormed 32 = false := by decide
theorem test_encub_off_too_wide : (Instr.encub 0 (2 ^ 32)).wellFormed 32 = false := by decide
theorem test_encs_off_too_wide : (Instr.encs 0 (2 ^ 32)).wellFormed 32 = false := by decide
theorem test_decs_off_too_wide : (Instr.decs (2 ^ 32) 0).wellFormed 32 = false := by decide
theorem test_decs_didx_too_wide : (Instr.decs 0 (2 ^ 32)).wellFormed 32 = false := by decide

/-! ## Decoding: each word is OP (8 bits), AUX (32), OFF (32), VAL (64), written field by field from rules R66 and R68 -/

theorem test_decode_sizeu : decodeTableWord 136 0b00000001_00000000000000000000000000000011_00000000000000000000000000000101_0000000000000000000000000000000000000000000000000000000100101100
    = some (.sizeu 300) := by decide
theorem test_decode_encf32 : decodeTableWord 136 0b00000010_00000000000000000000000000000000_00000000000000000000000000000101_1111111111111111111111111111111110000000000000000000000000000001
    = some (.encf32 0x80000001 5) := by decide
theorem test_decode_encu : decodeTableWord 136 0b00000011_11011110101011011011111011101111_00000000000000000000000000000111_1000000000000000000000000000000000000000000000000000000100101100
    = some (.encu 0x800000000000012C 7) := by decide
theorem test_decode_encub : decodeTableWord 136 0b00000100_10000000000000000000000000000011_01000000000000000000000000000001_0000000000000000000000000000000000000000000000000000000000000000
    = some (.encub 0x80000003 0x40000001) := by decide
theorem test_decode_sizes : decodeTableWord 136 0b00000101_00000000000000000000000000000000_00000000000000000000000000000000_1111111111111111111111111111111111111111111111111111111110111111
    = some (.sizes (-65)) := by decide
theorem test_decode_encs : decodeTableWord 136 0b00000110_00000000000000000000000000000000_10000000000000000000000000000110_1111111111111111111111111111111111111111111111111111111101101010
    = some (.encs (-150) 0x80000006) := by decide
theorem test_decode_decs : decodeTableWord 136 0b00000111_10000000000000000000000000000010_01000000000000000000000000001011_0000000000000000000000000000000000000000000000000000000000000000
    = some (.decs 0x4000000B 0x80000002) := by decide
/-- TI1, TI2, TI3, TI4. -/
theorem test_decode_illegal : decodeTableWord 136 0 = none ∧ decodeTableWord 136 (0x08 * 2 ^ 128) = none ∧
    decodeTableWord 136 (2 ^ 136 - 1) = none ∧ decodeTableWord 136 (0x83 * 2 ^ 128 + 300) = none := by decide
/-- The word of P2 line 6, from the encoder. -/
theorem test_encode_decs : encodeBits 32 (.decs 0x0B 2) = 0x07000000020000000B0000000000000000#136 := by decide
/-- TF8 without the half ENCF32 ignores. -/
theorem test_encode_encf32 : encodeBits 32 (.encf32 0xCAFEF00D 12) = 0x02000000000000000C00000000CAFEF00D#136 := by decide

/-- With OFF_W = 16 the record has 104 bits: OP, AUX (16), OFF (16), VAL (rule R66). -/
theorem test_other_width : decodeBits 16 0b00000111_1000000000000010_0100000000001011_0000000000000000000000000000000000000000000000000000000000000000#104
      = .ok (.decs 0x400B 0x8002) ∧
    encodeBits 16 (.encu 300 7) = 0x0300000007000000000000012C#104 := by decide

/-! ## One step each, on small states -/

/-- An idle block with memories of these lengths and contents. -/
def small (bufLen : Nat) (buf : Memory 8) (valsLen : Nat) (vals : Memory 64) (dstLen : Nat) (dst : Memory 64) : State :=
  { State.reset with bufLen, buf, valsLen, vals, dstLen, dst }

/-- Bytes from index `lo` up, as a memory. -/
def bytesAt (lo : Nat) : List Byte → Memory 8
  | [] => []
  | b :: bs => Memory.ofContents ((lo, b) :: bytesAt (lo + 1) bs)

/-- A block with a buffer only. -/
def withBuf (bufLen : Nat) (bytes : List Byte) : State := small bufLen (bytesAt 0 bytes) 0 [] 4 []

/-- VALS = 1, 300, 16384 (TB1). -/
def withVals (bufLen : Nat) : State := small bufLen [] 3 [(0, 1), (1, 300), (2, 16384)] 0 []

/-- The response of a step's outcome. -/
def reply : Host.Outcome State Fault Refusal → Option Response
  | .next t => t.response
  | .fault _ => none
  | .refused _ => none

/-- The response, BUF and DST of a step's outcome. -/
def seen : Host.Outcome State Fault Refusal → Option (Option Response × Memory 8 × Memory 64)
  | .next t => some (t.response, t.buf, t.dst)
  | .fault _ => none
  | .refused _ => none

/-- TU18, TU19. -/
theorem test_sizeu : reply (exec (.sizeu 0x7FFFFFFFFFFFFFFF) State.reset) = some (.size 9) ∧
    reply (exec (.sizeu 0x8000000000000000) State.reset) = some (.size 10) := by decide
/-- TF4: at an odd offset, most significant byte first. -/
theorem test_encf32 : seen (exec (.encf32 0x80000001 5) (withBuf 16 [])) =
    some (some (.offset 9), [(5, 0x80), (8, 0x01)], []) := by decide
/-- TF9. -/
theorem test_encf32_faults : reply (exec (.encf32 0x11223344 13) (withBuf 16 [])) = some (.fault .bufOutOfRange 16) := by
  decide
/-- TV8. -/
theorem test_encu : seen (exec (.encu 300 7) (withBuf 16 [])) = some (some (.offset 9), [(7, 0xAC), (8, 0x02)], []) := by
  decide
/-- TU22: ten bytes, the last 01. -/
theorem test_encu_ten : seen (exec (.encu (-1) 0) (withBuf 10 [])) =
    some (some (.offset 10), bytesAt 0 [0xFF, 0xFF, 0xFF, 0xFF, 0xFF, 0xFF, 0xFF, 0xFF, 0xFF, 0x01], []) := by decide
/-- TB1. -/
theorem test_encub : seen (exec (.encub 3 0) (withVals 16)) =
    some (some (.offset 6), bytesAt 0 [0x01, 0xAC, 0x02, 0x80, 0x80, 0x01], []) := by decide
/-- TB5, TB9, TB13. -/
theorem test_encub_edges : reply (exec (.encub 0 999) (withVals 16)) = some (.offset 999) ∧
    reply (exec (.encub 4 0) (withVals 16)) = some (.fault .srcOutOfRange 3) ∧
    reply (exec (.encub 5 14) (withVals 16)) = some (.fault .bufOutOfRange 16) := by decide
/-- TZ9, TZ30. -/
theorem test_sizes : reply (exec (.sizes (-65)) State.reset) = some (.size 2) ∧
    reply (exec (.sizes 0x4000000000000000) State.reset) = some (.size 10) := by decide
/-- TZ11. -/
theorem test_encs : seen (exec (.encs (-150) 0) (withBuf 4 [])) = some (some (.offset 2), [(0, 0xAB), (1, 0x02)], []) := by
  decide
/-- TZ33. -/
theorem test_encs_ten : seen (exec (.encs 0x8000000000000000 0) (withBuf 10 [])) =
    some (some (.offset 10), bytesAt 0 [0xFF, 0xFF, 0xFF, 0xFF, 0xFF, 0xFF, 0xFF, 0xFF, 0xFF, 0x01], []) := by decide
/-- TX8: only bit 0 of the tenth byte lands. -/
theorem test_decs : seen (exec (.decs 0 1) (withBuf 16 [0x80, 0x80, 0x80, 0x80, 0x80, 0x80, 0x80, 0x80, 0x80, 0x03])) =
    some (some (.offset 10), bytesAt 0 [0x80, 0x80, 0x80, 0x80, 0x80, 0x80, 0x80, 0x80, 0x80, 0x03],
      [(1, 0x4000000000000000)]) := by decide
/-- TX16, TX13, TX18. -/
theorem test_decs_faults :
    reply (exec (.decs 0 0) (withBuf 10 [255, 255, 255, 255, 255, 255, 255, 255, 255, 255])) =
      some (.fault .malformedVarint 9) ∧
    reply (exec (.decs 0 0) (withBuf 4 [0x80, 0x80, 0x80, 0x80])) = some (.fault .bufOutOfRange 4) ∧
    seen (exec (.decs 0 4) (withBuf 1 [2])) = some (some (.fault .dstOutOfRange 4), [(0, 2)], []) := by decide
/-- A step runs the command presented to the block at reset: P1 line 4, and TI2. -/
theorem test_step : seen (step (State.reset.withFetchWord 136 0x030000000000000004000000000000012C)) =
      some (some (.offset 6), [(4, 0xAC), (5, 0x02)], []) ∧
    reply (step (State.reset.withFetchWord 136 (0x08 * 2 ^ 128))) = some (.fault .illegalCommand 0) := by decide
/-- TS5 to TS8, and the document's formulas at the extremes (rule R101 item 4). -/
theorem test_zigzag : zigzag 0 = 0 ∧ zigzag (-1) = 1 ∧ zigzag 1 = 2 ∧ zigzag (-2) = 3 ∧
    zigzag 0x7FFFFFFFFFFFFFFF = 0xFFFFFFFFFFFFFFFE ∧ zigzag 0x8000000000000000 = 0xFFFFFFFFFFFFFFFF ∧
    unzigzag 299 = -150 := by decide

/-! ## Witnesses: for each statement with hypotheses, states and operands that meet them, at the edges of each clause -/

/-- The state with a command in flight. -/
def busy (c : Cmd) (s : State) : State := { s with cmd := some c }

/-- A record with this OP and non-zero operands. -/
def record (op : BitVec 8) : Cmd := { op, aux := 1, off := 2, val := 0x8000000000000003 }

/-- Nine continued bytes. -/
def nine : List Byte := [0x80, 0x81, 0x80, 0xFF, 0x80, 0x80, 0x80, 0x80, 0x80]

/-- Four idle elements of DST and a varint of one byte, BUF full; of ten bytes, BUF full; nine continued bytes to the end; ten. -/
def one : State := withBuf 1 [0x7F]
def ten : State := withBuf 10 (nine ++ [0x01])
def endless : State := withBuf 9 nine
def overlong : State := withBuf 10 (nine ++ [0x80])

theorem witness_DecodeEncodeRoundTrip : (Instr.decs (2 ^ 32 - 1) (2 ^ 32 - 1)).wellFormed 32 = true ∧
    (Instr.encub 0 (2 ^ 8 - 1)).wellFormed 8 = true := by decide

theorem witness_CommandRecordIsBitVector : (Cmd.mk 0xFF (2 ^ 32 - 1) 0 (-1)).fits 32 = true ∧
    (Cmd.mk 0x07 0 (2 ^ 5 - 1) 0).fits 5 = true := by decide

theorem witness_OpcodeMapDecodes : (record 0x01).op = 0x01#8 ∧ (record 0x02).op = 0x02#8 ∧ (record 0x03).op = 0x03#8 ∧
    (record 0x04).op = 0x04#8 ∧ (record 0x05).op = 0x05#8 ∧ (record 0x06).op = 0x06#8 ∧ (record 0x07).op = 0x07#8 ∧
    (record 0x00).op = 0x00#8 ∧ 0x08 ≤ (record 0x08).op.toNat ∧ 0x08 ≤ (record 0xFF).op.toNat := by decide

theorem witness_UnusedFieldsChangeNothing : ((record 0x01).op = 0x01#8 ∧ (record 0x05).op = 0x05#8) ∧
    (record 0x02).op = 0x02#8 ∧ ((record 0x03).op = 0x03#8 ∧ (record 0x06).op = 0x06#8) ∧
    ((record 0x04).op = 0x04#8 ∧ (record 0x07).op = 0x07#8) := by decide

theorem witness_DecodedCommandIsWellFormed : decode (record 0x07) = .ok (.decs 2 1) ∧ (record 0x07).fits 2 = true := by decide

theorem witness_StepRunsDecodedCommand : (busy (record 0x04) one).cmd = some (record 0x04) ∧
    resetPending (busy (record 0x04) one) = false ∧ decode (record 0x04) = .ok (.encub 1 2) ∧
    decodeTableWord 136 ((record 0x04).toBits 32).toNat = some (.encub 1 2) := by decide

theorem witness_IllegalCommandFaults : (busy (record 0x00) one).cmd = some (record 0x00) ∧
    resetPending (busy (record 0x00) one) = false ∧ (record 0x00).op = 0x00#8 ∧ 0x08 ≤ (record 0x08).op.toNat := by decide

theorem witness_IdleBlockWaitsForTheHost : (State.reset.cmd = none ∧ State.reset.host = []) ∧
    ({ one with host := [.issue (record 0x07)] }).cmd = none ∧
    ({ one with host := [.issue (record 0x07)] }).host = [.issue (record 0x07)] ∧ (record 0x07).fits one.offW = true := by decide

theorem witness_EveryCommandAnswersOnce : (busy (record 0xFF) ten).cmd = some (record 0xFF) ∧
    resetPending (busy (record 0xFF) ten) = false := by decide

theorem witness_OnlyHostMovesAreRefused :
    step { one with host := [.writeBuf 1 0] } = .refused .hostIndexOutsideContainer ∧
    step { one with host := [.attachDst (2 ^ 32) []] } = .refused .capacityOutsideIndexSpace ∧
    step { one with host := [.issue { record 0x01 with aux := 2 ^ 32 }] } = .refused .commandOutsideFields := ⟨rfl, rfl, rfl⟩

theorem witness_SizeuAnswers : (record 0x01).op = 0x01#8 ∧ (0x8000000000000000 : Value).getLsbD 63 = true ∧
    (0x7FFFFFFFFFFFFFFF : Value).getLsbD 63 = false := by decide

theorem witness_SizeuUnderValueNonneg : ValueNonneg (.sizeu 0) ∧ ValueNonneg (.sizeu 0x7FFFFFFFFFFFFFFF) :=
  ⟨by simp [ValueNonneg], by unfold ValueNonneg; decide⟩

theorem witness_SizesAnswers : (record 0x05).op = 0x05#8 ∧ usize (zigzag 0x4000000000000000) = 10 ∧
    usize (zigzag 0xBFFFFFFFFFFFFFFF) = 10 ∧ (2 : Int) ^ 62 ≤ (0x4000000000000000 : Value).toInt ∧
    (0xBFFFFFFFFFFFFFFF : Value).toInt < -2 ^ 62 := by decide

/-- OFF + 4 = BUF_LEN, one byte short, and OFF at BUF_LEN. -/
theorem witness_Encf32PacksBigEndian : (record 0x02).op = 0x02#8 ∧ 6 + 4 ≤ ten.bufLen ∧ ten.bufLen < 7 + 4 ∧
    ten.bufLen < 10 + 4 := by decide

theorem witness_EncuWritesVarint : (record 0x03).op = 0x03#8 ∧ 8 + usize 300 ≤ ten.bufLen ∧
    ten.bufLen < 9 + usize 300 ∧ ten.bufLen < 10 + usize 300 ∧ (-1 : Value).getLsbD 63 = true := by decide

/-- An empty batch beyond BUF; a batch that just fits; CNT one too many after all elements fit, and with no element; one byte
short; OFF at BUF_LEN. -/
theorem witness_EncubWritesBatch :
    (0 ≤ (withVals 6).valsLen ∧ (0 : Nat) = 0) ∧
    (3 ≤ (withVals 6).valsLen ∧ 0 + batchSize (withVals 6).vals 3 ≤ (withVals 6).bufLen) ∧
    ((withVals 6).valsLen < 4 ∧ 0 + batchSize (withVals 6).vals (withVals 6).valsLen ≤ (withVals 6).bufLen) ∧
    (one.valsLen < 1 ∧ one.valsLen = 0) ∧
    (0 < min 3 (withVals 5).valsLen ∧
      (withVals 5).bufLen < 0 + batchSize (withVals 5).vals (min 3 (withVals 5).valsLen)) ∧
    (0 < min 1 (withVals 5).valsLen ∧
      (withVals 5).bufLen < 5 + batchSize (withVals 5).vals (min 1 (withVals 5).valsLen)) := by decide

theorem witness_EncsWritesMappedVarint : (record 0x06).op = 0x06#8 ∧ 8 + usize (zigzag (-65)) ≤ ten.bufLen ∧
    ten.bufLen < 9 + usize (zigzag (-65)) ∧ ten.bufLen < 10 + usize (zigzag (-65)) := by decide

/-- One byte and ten bytes, each ending at BUF_LEN, with DIDX the last element. -/
theorem witness_DecsReadsVarint : (VarintAt one.buf 0 1 ∧ 0 + 1 ≤ one.bufLen ∧ 3 < one.dstLen) ∧
    (VarintAt ten.buf 0 10 ∧ 0 + 10 ≤ ten.bufLen ∧ 3 < ten.dstLen) := by decide

theorem witness_DecsFaultsChangeNothing : one.bufLen ≤ 1 ∧ OverLong overlong 0 ∧ (RunsOut endless 0 ∧ RunsOut endless 8) ∧
    (VarintAt ten.buf 0 10 ∧ 0 + 10 ≤ ten.bufLen ∧ ten.dstLen ≤ 4) := by decide

theorem witness_UsizeMatchesThresholds : (127 : Value).toNat < 2 ^ 7 ∧
    (2 ^ (7 * (2 - 1)) ≤ (128 : Value).toNat ∧ (128 : Value).toNat < 2 ^ (7 * 2)) ∧
    (2 ^ (7 * (9 - 1)) ≤ (0x7FFFFFFFFFFFFFFF : Value).toNat ∧ (0x7FFFFFFFFFFFFFFF : Value).toNat < 2 ^ (7 * 9)) ∧
    2 ^ 63 ≤ (0x8000000000000000 : Value).toNat := by decide

theorem witness_ZigzagBitsAndNumbers : 0 ≤ (0 : Value).toInt ∧ 0 ≤ (0x7FFFFFFFFFFFFFFF : Value).toInt ∧
    (-1 : Value).toInt < 0 ∧ (0x8000000000000000 : Value).toInt < 0 := by decide

theorem witness_UnzigzagInvertsZigzag : (0 : Value).toNat % 2 = 0 ∧ (0xFFFFFFFFFFFFFFFE : Value).toNat % 2 = 0 ∧
    (1 : Value).toNat % 2 = 1 ∧ (0xFFFFFFFFFFFFFFFF : Value).toNat % 2 = 1 := by decide

theorem witness_Encf32ReadsBackBigEndian :
    6 + 4 ≤ ten.bufLen ∧ ∃ t, exec (.encf32 0x12345678 6) ten = .next t := ⟨by decide, _, rfl⟩

/-- One byte and two bytes. -/
theorem witness_EncuWritesShortestForm :
    (∃ t, exec (.encu 0 9) ten = .next t ∧ t.response = some (.offset 10)) ∧
    ∃ t, exec (.encu 300 8) ten = .next t ∧ t.response = some (.offset 10) := ⟨⟨_, rfl, by decide⟩, _, rfl, by decide⟩

theorem witness_BatchEqualsSequence : 3 ≤ (withVals 6).valsLen ∧
    EncuSequence (firstElements (withVals 6).vals 0) 9 one (.offset 9) one ∧
    ∃ t, EncuSequence (firstElements (withVals 0).vals 1) 0 one (.offset 1) t :=
  ⟨by decide, .done _ _, _, .more (o := 1) rfl (by decide) (.done _ _)⟩

theorem witness_SignedRoundTrip : ∃ t, exec (.encs (-65) 8) ten = .next t ∧ t.response = some (.offset 10) ∧
    (∀ a, 8 ≤ a → a < 10 → t.buf.read a = t.buf.read a) ∧ 10 ≤ t.bufLen ∧ 3 < t.dstLen :=
  ⟨_, rfl, by decide, fun _ _ _ => rfl, by decide, by decide⟩

theorem witness_DecsOfUnsignedOutput : ∃ t, exec (.encu 300 8) ten = .next t ∧ t.response = some (.offset 10) ∧
    (∀ a, 8 ≤ a → a < 10 → t.buf.read a = t.buf.read a) ∧ 10 ≤ t.bufLen ∧ 3 < t.dstLen :=
  ⟨_, rfl, by decide, fun _ _ _ => rfl, by decide, by decide⟩

/-- Tenth bytes 01 and 7F. -/
theorem witness_TenthByteKeepsOneBit : VarintAt ten.buf 0 10 ∧ VarintAt (withBuf 10 (nine ++ [0x7F])).buf 0 10 ∧
    0 + 10 ≤ ten.bufLen ∧ 3 < ten.dstLen ∧
    (∀ j < 9, (withBuf 10 (nine ++ [0x7F])).buf.read (0 + j) = ten.buf.read (0 + j)) ∧
    ((withBuf 10 (nine ++ [0x7F])).buf.read (0 + 9)).getLsbD 0 = (ten.buf.read (0 + 9)).getLsbD 0 := by decide

theorem witness_FitsNeverFaults : Fits (.sizeu 0) one ∧ Fits (.sizes 0) one ∧ Fits (.encf32 7 6) ten ∧ Fits (.encu 300 8) ten ∧
    Fits (.encub 3 0) (withVals 6) ∧ Fits (.encs (-65) 8) ten ∧ Fits (.decs 0 3) ten :=
  ⟨trivial, trivial, Nat.le_refl 10, Nat.le_refl 10, ⟨Nat.le_refl 3, Nat.le_refl 6⟩, Nat.le_refl 10,
    ⟨10, by decide, by decide⟩, by decide⟩

theorem witness_OffsetsMoveForwardInsideBuf :
    (∃ t, exec (.decs 0 3) ten = .next t ∧ t.response = some (.offset 10)) ∧
    ∃ t, exec (.encub 0 99) ten = .next t ∧ t.response = some (.offset 99) := ⟨⟨_, rfl, by decide⟩, _, rfl, by decide⟩

/-- Each fault a command can end in. -/
theorem witness_FaultsReportWhatTheyMet :
    (∃ t, exec (.encf32 0 7) ten = .next t ∧ t.response = some (.fault .bufOutOfRange 10)) ∧
    (∃ t, exec (.encub 4 0) (withVals 6) = .next t ∧ t.response = some (.fault .srcOutOfRange 3)) ∧
    (∃ t, exec (.decs 0 4) ten = .next t ∧ t.response = some (.fault .dstOutOfRange 4)) ∧
    ∃ t, exec (.decs 0 4) overlong = .next t ∧ t.response = some (.fault .malformedVarint 9) :=
  ⟨⟨_, rfl, by decide⟩, ⟨_, rfl, by decide⟩, ⟨_, rfl, by decide⟩, _, rfl, by decide⟩

theorem witness_CommandsWriteOnlyTheirOwn : ∃ t, exec (.encub 3 0) (withVals 6) = .next t := ⟨_, rfl⟩

/-- The same memories after another command's response; a command that succeeds and one that faults. -/
theorem witness_NothingSurvivesACommand :
    SameMemories ten { busy (record 0x07) ten with response := some (.size 1), received := [.size 1], draws := 5 } ∧
    (∃ t, exec (.decs 0 3) ten = .next t ∧ t.response = some (.offset 10)) ∧
    ∃ t, exec (.encu 300 9) ten = .next t ∧ t.response = some (.fault .bufOutOfRange 10) :=
  ⟨⟨rfl, rfl, rfl, rfl, rfl, rfl⟩, ⟨_, rfl, by decide⟩, _, rfl, by decide⟩

/-- VALS changed at CNT; BUF changed at the eleventh byte; an encoder and a DECS that answer. -/
theorem witness_CommandsReadOnlyTheirOwn :
    ((∀ a < 2, Memory.read [(0, (1 : Value)), (1, 300)] a = (withVals 6).vals.read a) ∧
      ∃ t, exec (.encub 2 0) (withVals 6) = .next t) ∧
    ((∀ cnt off, Instr.decs 0 3 ≠ .encub cnt off) ∧ ∃ t, exec (.decs 0 3) ten = .next t) ∧
    (∀ j < 10, 0 + j < ten.bufLen → (bytesAt 0 (nine ++ [0x01, 0xEE])).read (0 + j) = ten.buf.read (0 + j)) ∧
    ((∀ off didx, Instr.encu 300 8 ≠ .decs off didx) ∧
      ∃ t, exec (.encu 300 8) ten = .next t ∧ t.response = some (.offset 10)) ∧
    (∃ t, exec (.decs 0 3) ten = .next t ∧ t.response = some (.offset 10)) ∧ (Response.offset 10).isFault = false :=
  ⟨⟨by decide, _, rfl⟩, ⟨(fun _ _ h => by cases h), _, rfl⟩, by decide,
    ⟨(fun _ _ h => by cases h), _, rfl, by decide⟩, ⟨_, rfl, by decide⟩, rfl⟩

theorem witness_RepeatingACommandChangesNothing : ∃ t u, exec (.encu 300 8) ten = .next t ∧
    t.response = some (.offset 10) ∧ (Response.offset 10).isFault = false ∧ exec (.encu 300 8) t = .next u :=
  ⟨_, _, rfl, by decide, rfl, rfl⟩

theorem witness_AccessPrimitivesCheckTheRange : (one.bufLen ≤ 1 ∧ one.valsLen ≤ 0 ∧ one.dstLen ≤ 4) ∧ 0 < one.bufLen ∧
    2 < (withVals 6).valsLen ∧ 3 < one.dstLen := by decide

theorem witness_HostMovesReachTheMemories : one.cmd = none ∧ 0 < one.bufLen ∧ 2 < (withVals 6).valsLen ∧ 3 < one.dstLen ∧
    2 ^ 32 - 1 < Config.indexBound one.offW ∧ ∀ c ∈ [(4, (0xEE : Byte)), (0, 1)], c.1 < 5 := by decide

/-- The state after reset, and one with a command in flight, meet the invariant and step on. -/
theorem witness_StepKeepsInvariant : State.reset.Inv ∧ (busy (record 0x07) ten).Inv ∧ step State.reset = .next State.reset ∧
    ∃ t, step (busy (record 0x07) ten) = .next t :=
  ⟨⟨by decide, by decide, by decide, by decide, by decide, by decide, by decide, by decide, by decide,
      (fun _ h => nomatch h), rfl, by simp [State.reset], by simp [State.reset]⟩,
   ⟨by decide, by decide, by decide, by decide, by decide, by decide, by decide, by decide, by decide,
      (fun c h => by cases h; decide), rfl, (fun _ h => nomatch h), (fun _ h => nomatch h)⟩,
   rfl, _, rfl⟩

theorem witness_FaultRecordIsKept : ∃ t, step { one with received := [.fault .illegalCommand 0] } = .next t ∧
    State.faultRecorded { one with received := [.fault .illegalCommand 0] } = true := ⟨_, rfl, by decide⟩

/-- A reset with this command in flight. -/
def cut (op : BitVec 8) (aux off : Nat) (s : State) : State := busy { op, aux, off, val := 300 } { s with host := [.reset] }

/-- A reset of an idle block, over an illegal command, and over a DECS and an ENCU that would complete and that would fault. -/
theorem witness_ResetAbandonsTheCommand : ({ ten with host := [.reset] }).cmd = none ∧ (cut 0x07 3 0 ten).host = .reset :: [] ∧
    decode { op := 0x08, aux := 3, off := 0, val := 300 } = .error (.illegalOpcode 0x08) ∧
    (decode { op := 0x07, aux := 3, off := 0, val := 300 } = .ok (.decs 0 3) ∧
      (∃ u, exec (.decs 0 3) (cut 0x07 3 0 ten) = .next u ∧ u.response = some (.offset 10)) ∧
      ∃ u, exec (.decs 0 3) (cut 0x07 3 0 endless) = .next u ∧ u.response = some (.fault .bufOutOfRange 9)) ∧
    decode { op := 0x03, aux := 3, off := 9, val := 300 } = .ok (.encu 300 9) ∧
      (∃ u, exec (.encu 300 9) (cut 0x03 3 9 { ten with bufLen := 11 }) = .next u ∧ u.response = some (.offset 11)) ∧
      ∃ u, exec (.encu 300 9) (cut 0x03 3 9 ten) = .next u ∧ u.response = some (.fault .bufOutOfRange 10) :=
  ⟨rfl, rfl, by decide, ⟨by decide, ⟨_, rfl, by decide⟩, _, rfl, by decide⟩, by decide, ⟨_, rfl, by decide⟩, _, rfl, by decide⟩

theorem witness_ConstantsStayFixed : (∃ t, step (cut 0x07 3 0 ten) = .next t) ∧ (cut 0x07 3 0 ten).cmd ≠ none ∧
    ∃ t, step { one with host := [.attachDst 9 []] } = .next t := ⟨⟨_, rfl⟩, by decide, _, rfl⟩

end Sys2Proof.Tests
end

section
/-! The proof that every step keeps the invariant: the memories of each end of a command, the response each end gives, a reset,
and the host's moves, one layer each. -/

namespace Sys2Proof.Machine

/-! A memory that is in canonical form and inside its capacity stays so. -/

/-- What the invariant says of one memory: canonical form, and no listed index outside the container (rule R40). -/
def Memory.Sound {w : Nat} (m : Memory w) (len : Nat) : Prop := m.wf ∧ m.within len

theorem Memory.Sound.write {w len : Nat} {m : Memory w} (h : m.Sound len) {i : Nat} (hi : i < len) (v : BitVec w) :
    (m.write i v).Sound len :=
  ⟨Memory.write_wf h.1 i v, Memory.write_within h.2 hi v⟩

theorem Memory.Sound.of_attachCheck {w offW len : Nat} {cs : List (Nat × BitVec w)} (h : attachCheck offW len cs = none) :
    (Memory.ofContents cs).Sound len :=
  ⟨Memory.ofContents_wf cs, Memory.ofContents_within (attachCheck_eq_none.1 h).2⟩

theorem len_lt_of_attachCheck {w offW len : Nat} {cs : List (Nat × BitVec w)} (h : attachCheck offW len cs = none) :
    len < Config.indexBound offW := (attachCheck_eq_none.1 h).1

/-- Bytes that fit, the first `k` of them then settled old or new (rule R127). -/
theorem Memory.Sound.settle_writeAll {s : State} {off k : Nat} {bs : List Byte} (h : s.buf.Sound s.bufLen)
    (hfit : BytesFit s off bs) (hk : k ≤ bs.length) (d : Nat) :
    (Memory.settle s.buf (Memory.writeAll s.buf off bs) d off k).Sound s.bufLen := by
  obtain ⟨hwf, hin⟩ := h
  refine ⟨Memory.settle_wf (Memory.writeAll_wf hwf off bs) d off k, ?_⟩
  have hnew := Memory.writeAll_within hin hfit
  rcases hfit with rfl | hle
  · obtain rfl : k = 0 := Nat.le_zero.1 hk
    exact hnew
  · exact Memory.settle_within hnew (by omega) d

/-! The invariant under the updates a step makes. -/

theorem State.Inv.bufSound {s : State} (hs : s.Inv) : s.buf.Sound s.bufLen := ⟨hs.bufWf, hs.bufWithin⟩

theorem State.Inv.dstSound {s : State} (hs : s.Inv) : s.dst.Sound s.dstLen := ⟨hs.dstWf, hs.dstWithin⟩

theorem State.Inv.valsSound {s : State} (hs : s.Inv) : s.vals.Sound s.valsLen := ⟨hs.valsWf, hs.valsWithin⟩

theorem State.Inv.with_buf {s : State} (hs : s.Inv) {len : Nat} {m : Memory 8} (hm : m.Sound len)
    (hlen : len < Config.indexBound s.offW) : State.Inv { s with bufLen := len, buf := m } :=
  { hs with bufWf := hm.1, bufWithin := hm.2, bufLen_lt := hlen }

theorem State.Inv.with_vals {s : State} (hs : s.Inv) {len : Nat} {m : Memory 64} (hm : m.Sound len)
    (hlen : len < Config.indexBound s.offW) : State.Inv { s with valsLen := len, vals := m } :=
  { hs with valsWf := hm.1, valsWithin := hm.2, valsLen_lt := hlen }

theorem State.Inv.with_dst {s : State} (hs : s.Inv) {len : Nat} {m : Memory 64} (hm : m.Sound len)
    (hlen : len < Config.indexBound s.offW) : State.Inv { s with dstLen := len, dst := m } :=
  { hs with dstWf := hm.1, dstWithin := hm.2, dstLen_lt := hlen }

/-- The host's moves are not the block's: the invariant says nothing of them. -/
theorem State.Inv.with_host {s : State} (hs : s.Inv) (moves : List HostMove) : State.Inv { s with host := moves } :=
  { hs with }

/-- A legal response over sound memories: with what `Answered` keeps, that is the invariant again. -/
theorem State.Inv.of_answered {r : Response} {s t : State} (hs : s.Inv) (ha : Answered r s t)
    (hbuf : t.buf.Sound s.bufLen) (hdst : t.dst.Sound s.dstLen) (hr : r.legal s.offW = true) : t.Inv where
  bufWf := hbuf.1
  bufWithin := ha.bufLen ▸ hbuf.2
  bufLen_lt := by rw [ha.bufLen, ha.offW]; exact hs.bufLen_lt
  valsWf := ha.vals ▸ hs.valsWf
  valsWithin := by rw [ha.vals, ha.valsLen]; exact hs.valsWithin
  valsLen_lt := by rw [ha.valsLen, ha.offW]; exact hs.valsLen_lt
  dstWf := hdst.1
  dstWithin := ha.dstLen ▸ hdst.2
  dstLen_lt := by rw [ha.dstLen, ha.offW]; exact hs.dstLen_lt
  cmdFits := by simp [ha.cmd]
  workNone := ha.work
  responseLegal := by simpa [ha.response, ha.offW] using hr
  receivedLegal := by
    intro r' hr'
    rw [ha.received, List.mem_append, List.mem_singleton] at hr'
    rw [ha.offW]
    rcases hr' with hold | rfl
    · exact hs.receivedLegal r' hold
    · exact hr

/-! Which responses are legal (rule R71). -/

theorem indexFits_iff {offW n : Nat} : indexFits offW n = true ↔ n < Config.indexBound offW := decide_eq_true_iff

theorem legal_size_usize (offW : Nat) (m : Value) : (Response.size (usize m)).legal offW = true := by
  have hlo := usize_pos m
  have hhi := usize_le_maxVarint m
  simp only [Response.legal, Bool.and_eq_true, decide_eq_true_eq]
  exact ⟨hlo, hhi⟩

theorem legal_offset_iff {offW o : Nat} : (Response.offset o).legal offW = true ↔ o < Config.indexBound offW := indexFits_iff

/-- Any fault may carry an index of the index space; IllegalCommand, whose index is 0, is apart (rule R125). -/
theorem legal_fault {offW x : Nat} {f : Fault} (hf : f ≠ .illegalCommand) (hx : x < Config.indexBound offW) :
    (Response.fault f x).legal offW = true := by
  cases f with
  | illegalCommand => exact absurd rfl hf
  | bufOutOfRange | srcOutOfRange | dstOutOfRange | malformedVarint => exact indexFits_iff.2 hx

/-! The operands of the command in flight fit their fields. -/

/-- The operands of a decoded command are the fields of its record, so they fit when those do (rules R66, R72). -/
theorem wellFormed_of_decode {offW : Nat} {c : Cmd} {i : Instr} (hc : c.fits offW = true) (hd : decode c = .ok i) :
    i.wellFormed offW = true := by
  obtain ⟨haux, hoff⟩ := Bool.and_eq_true_iff.1 hc
  unfold decode at hd
  split at hd <;> cases hd <;> simp [Instr.wellFormed, haux, hoff]

theorem off_lt_of_encoderBytes {s : State} {i : Instr} {offW off : Nat} {bs : List Byte} (hi : i.wellFormed offW = true)
    (he : encoderBytes i s = some (off, bs)) : off < Config.indexBound offW := by
  cases i with
  | sizeu | sizes | decs => cases he
  | encf32 | encu | encs => cases he; exact indexFits_iff.1 hi
  | encub => cases he; exact indexFits_iff.1 (Bool.and_eq_true_iff.1 hi).2

/-! A command, run to its end, keeps the invariant. -/

/-- The fault that leaves an encoder's bytes settled: only those that lay inside BUF were written (rules R121, R127). -/
theorem storeFaulted_buf_sound {s : State} {off : Nat} {bs : List Byte} (hs : s.buf.Sound s.bufLen)
    (hfit : ¬ BytesFit s off bs) : (storeFaulted s off bs).buf.Sound s.bufLen := by
  have hwritten : written s off bs = bs.take (s.bufLen - off) := if_neg hfit
  obtain ⟨-, hlen⟩ := not_or.1 hfit
  rw [storeFaulted, takeFault_buf]
  refine hs.settle_writeAll (hwritten ▸ bytesFit_written s off bs) ?_ s.draws
  rw [List.length_take]
  omega

/-- Whatever the end of a command, BUF and DST stay canonical and inside their capacities. -/
theorem Ends.memories_sound {i : Instr} {s t : State} (h : Ends s i t) (hbuf : s.buf.Sound s.bufLen)
    (hdst : s.dst.Sound s.dstLen) : t.buf.Sound s.bufLen ∧ t.dst.Sound s.dstLen := by
  cases h with
  | sizeu | sizes | outside | overLong | runsOut | noRoom => exact ⟨hbuf, hdst⟩
  | stored _ hfit => exact ⟨hbuf.settle_writeAll hfit (Nat.zero_le _) 0, hdst⟩
  | storeFaulted _ hfit => exact ⟨storeFaulted_buf_sound hbuf hfit, hdst⟩
  | sourceFaulted _ hfit => exact ⟨hbuf.settle_writeAll hfit (by omega) s.draws, hdst⟩
  | loaded _ _ hd => exact ⟨hbuf, hdst.write hd _⟩

/-- Whatever the end of a command, its response is legal: an offset or a BUF index lies in BUF or is the operand OFF itself, and the
other indices are a capacity or the operand DIDX. -/
theorem Ends.response_legal {i : Instr} {s t : State} {r : Response} (h : Ends s i t) (hs : s.Inv)
    (hi : i.wellFormed s.offW = true) (hr : t.response = some r) : r.legal s.offW = true := by
  have hbufLen := hs.bufLen_lt
  cases h with
  | sizeu v => cases hr; exact legal_size_usize _ v
  | sizes v => cases hr; exact legal_size_usize _ (zigzag v)
  | stored he hfit _ =>
    cases hr
    have hoff := off_lt_of_encoderBytes hi he
    rw [legal_offset_iff]
    rcases hfit with rfl | hle
    · exact hoff
    · omega
  | storeFaulted he _ => cases hr; exact legal_fault (by simp) (max_lt (off_lt_of_encoderBytes hi he) hbufLen)
  | sourceFaulted => cases hr; exact legal_fault (by simp) hs.valsLen_lt
  | loaded => cases hr; rw [legal_offset_iff]; omega
  | outside => cases hr; exact legal_fault (by simp) (indexFits_iff.1 (Bool.and_eq_true_iff.1 hi).1)
  | overLong hover =>
    cases hr
    obtain ⟨hin, -⟩ := hover
    exact legal_fault (by simp) (by omega)
  | runsOut => cases hr; exact legal_fault (by simp) hbufLen
  | noRoom => cases hr; exact legal_fault (by simp) (indexFits_iff.1 (Bool.and_eq_true_iff.1 hi).2)

theorem exec_keeps_inv {i : Instr} {s t : State} (hs : s.Inv) (hi : i.wellFormed s.offW = true)
    (h : exec i s = .next t) : t.Inv := by
  have hends := ends_of_exec h
  obtain ⟨r, ha⟩ := hends.answered
  obtain ⟨hbuf, hdst⟩ := hends.memories_sound hs.bufSound hs.dstSound
  exact hs.of_answered ha hbuf hdst (hends.response_legal hs hi ha.response)

/-- An illegal command answers FAULT(IllegalCommand, 0) and touches no memory (rule R125). -/
theorem illegalCommand_keeps_inv {s : State} (hs : s.Inv) : (illegalCommand s).Inv :=
  hs.of_answered (r := .fault .illegalCommand 0) ⟨rfl, rfl, rfl, rfl, rfl, rfl, rfl, rfl, rfl, rfl⟩
    hs.bufSound hs.dstSound rfl

theorem runCommand_keeps_inv {c : Cmd} {s t : State} (hs : s.Inv) (hc : s.cmd = some c)
    (h : runCommand c s = .next t) : t.Inv := by
  unfold runCommand at h
  cases hd : decode c with
  | ok i =>
    rw [hd] at h
    exact exec_keeps_inv hs (wellFormed_of_decode (hs.cmdFits c hc) hd) h
  | error e =>
    rw [hd] at h
    cases h
    exact illegalCommand_keeps_inv hs

/-! A reset keeps the invariant, whether or not a command is in flight. -/

/-- What a reset finds to abandon, if anything, was cut short in one of the ways of `Aborted`. -/
theorem abortInFlight_aborted (s : State) : ∃ i, Aborted s i (abortInFlight s) := by
  rcases abortInFlight_cases s with heq | ⟨c, i, -, -, heq⟩
  · exact ⟨.sizeu 0, heq.symm ▸ .nothing _⟩
  · exact ⟨i, heq.symm ▸ abortInstr_aborted i s⟩

theorem acceptReset_keeps_inv {s : State} (hs : s.Inv) : (acceptReset s).Inv := by
  obtain ⟨i, hab⟩ := abortInFlight_aborted s
  obtain ⟨hoffW, hbufLen, hvalsLen, hvals, hdstLen, -, -, -, hreceived⟩ := hab.frame
  obtain ⟨hbuf, hbufIn, hdst, hdstIn⟩ := hab.memories hs.bufWf hs.bufWithin hs.dstWf hs.dstWithin
  exact {
    bufWf := hbuf
    bufWithin := hbufIn
    bufLen_lt := by simpa only [acceptReset, hbufLen, hoffW] using hs.bufLen_lt
    valsWf := by simpa only [acceptReset, hvals] using hs.valsWf
    valsWithin := by simpa only [acceptReset, hvals, hvalsLen] using hs.valsWithin
    valsLen_lt := by simpa only [acceptReset, hvalsLen, hoffW] using hs.valsLen_lt
    dstWf := hdst
    dstWithin := hdstIn
    dstLen_lt := by simpa only [acceptReset, hdstLen, hoffW] using hs.dstLen_lt
    cmdFits := by simp [acceptReset]
    workNone := rfl
    responseLegal := by simp [acceptReset]
    receivedLegal := by simpa only [acceptReset, hreceived, hoffW] using hs.receivedLegal }

/-! The host's moves keep the invariant. -/

theorem issueCommand_keeps_inv {c : Cmd} {s : State} (hs : s.Inv) (hc : c.fits s.offW = true) : (issueCommand c s).Inv :=
  { hs with
    cmdFits := fun c' h => by cases h; exact hc
    responseLegal := fun _ h => nomatch h }

/-- Each move that is not refused puts a sound memory, a fitting command or no response in its place, or resets the block. -/
theorem hostMove_keeps_inv {mv : HostMove} {s t : State} (hs : s.Inv) (h : hostMove mv s = .next t) : t.Inv := by
  cases mv <;> simp only [hostMove] at h
  case reset => cases h; exact acceptReset_keeps_inv hs
  case readResponse => cases h; exact { hs with responseLegal := fun _ h => nomatch h }
  case issue => split at h <;> cases h; next hc => exact issueCommand_keeps_inv hs hc
  case writeBuf => split at h <;> cases h; next hi => exact hs.with_buf (hs.bufSound.write hi _) hs.bufLen_lt
  case writeVals => split at h <;> cases h; next hi => exact hs.with_vals (hs.valsSound.write hi _) hs.valsLen_lt
  case writeDst => split at h <;> cases h; next hi => exact hs.with_dst (hs.dstSound.write hi _) hs.dstLen_lt
  case attachBuf => split at h <;> cases h; next hc => exact hs.with_buf (.of_attachCheck hc) (len_lt_of_attachCheck hc)
  case attachVals => split at h <;> cases h; next hc => exact hs.with_vals (.of_attachCheck hc) (len_lt_of_attachCheck hc)
  case attachDst => split at h <;> cases h; next hc => exact hs.with_dst (.of_attachCheck hc) (len_lt_of_attachCheck hc)

theorem hostTurn_keeps_inv {s t : State} (hs : s.Inv) (h : hostTurn s = .next t) : t.Inv := by
  unfold hostTurn at h
  split at h
  · cases h; exact hs
  · exact hostMove_keeps_inv (hs.with_host _) h

/-- Settles O43: a step is the host's turn or the command in flight run to its end, and each keeps the invariant. -/
theorem stepKeepsInvariant : Obligations.StepKeepsInvariant := by
  intro s t hs h
  unfold step at h
  split at h
  next c hc =>
    split at h
    · exact hostTurn_keeps_inv hs h
    · exact runCommand_keeps_inv hs hc h
  next => exact hostTurn_keeps_inv hs h

end Sys2Proof.Machine
end

section
/-! The proofs about what a command writes, what it reads and what a reset leaves: a command's effect stated apart from the state it
acts on (`exec_effect`), the frame of each kind of step, and from these the obligations on the state. -/

namespace Sys2Proof.Machine

/-! Bytes written from an offset, the first of them then settled old or new (rules R127, R140). -/

/-- The memory with `vs` written from `lo`, the first `k` indices then old or new by the draws from number `d`. -/
def Memory.writeSettled {w : Nat} (m : Memory w) (d lo k : Nat) (vs : List (BitVec w)) : Memory w :=
  Memory.settle m (Memory.writeAll m lo vs) d lo k

/-- Whether an index reads new is up to the range and the draws, not to the memory. -/
theorem Memory.read_writeSettled {w : Nat} (m : Memory w) (d lo k : Nat) (vs : List (BitVec w)) (a : Nat) :
    (m.writeSettled d lo k vs).read a =
      if h : (lo ≤ a ∧ a - lo < vs.length) ∧ ¬ (a < lo + k ∧ Config.drawKeepsNew (d + (a - lo)) = false) then vs[a - lo]
      else m.read a := by
  rw [writeSettled, Memory.read_settle, Memory.read_writeAll]
  by_cases hold : lo ≤ a ∧ a < lo + k ∧ Config.drawKeepsNew (d + (a - lo)) = false
  · rw [if_pos hold, dif_neg fun h => h.2 hold.2]
  · rw [if_neg hold]
    by_cases hin : lo ≤ a ∧ a - lo < vs.length
    · rw [dif_pos hin, dif_pos ⟨hin, fun h => hold ⟨hin.1, h⟩⟩]
    · rw [dif_neg hin, dif_neg fun h => hin h.1]

theorem Memory.read_writeSettled_cases {w : Nat} (m m' : Memory w) (d lo k : Nat) (vs : List (BitVec w)) (a : Nat) :
    (∃ h : lo ≤ a ∧ a - lo < vs.length, (m.writeSettled d lo k vs).read a = vs[a - lo] ∧
        (m'.writeSettled d lo k vs).read a = vs[a - lo]) ∨
      (m.writeSettled d lo k vs).read a = m.read a ∧ (m'.writeSettled d lo k vs).read a = m'.read a := by
  simp only [Memory.read_writeSettled]
  split
  next h => exact .inl ⟨h.1, rfl, rfl⟩
  next => exact .inr ⟨rfl, rfl⟩

theorem Memory.read_writeSettled_zero {w : Nat} (m : Memory w) (d lo : Nat) (vs : List (BitVec w)) (a : Nat)
    (h : lo ≤ a ∧ a - lo < vs.length) : (m.writeSettled d lo 0 vs).read a = vs[a - lo] := by
  rw [Memory.read_writeSettled, dif_pos ⟨h, by omega⟩]

/-! The bytes an encoder writes stand where `MayWriteBuf` and `storedLayout` say. -/

theorem mayWriteBuf_iff {i : Instr} {s : State} {off : Nat} {bs : List Byte} (h : encoderBytes i s = some (off, bs)) (a : Nat) :
    MayWriteBuf s a i ↔ off ≤ a ∧ a < off + bs.length := by
  cases i <;> cases h
  case encf32 => exact Iff.rfl
  case encub => rw [length_encubBytes]; exact Iff.rfl
  case encu | encs => rw [length_varintBytes]; exact Iff.rfl

theorem getElem_storedLayout {i : Instr} {s : State} {off : Nat} {bs : List Byte} (h : encoderBytes i s = some (off, bs))
    (a : Nat) (ha : a - off < bs.length) : (bs[a - off]).toNat = storedLayout s a i := by
  cases i <;> cases h
  case encf32 => exact getElem_fixedBytes _ _ _
  case encub => exact getElem_batchLayout _ _ _ _
  case encu | encs => exact getElem_varintBytes _ _ _

theorem not_mayWriteDst_of_encoderBytes {i : Instr} {s : State} {p : Nat × List Byte} (h : encoderBytes i s = some p) (a : Nat) :
    ¬ MayWriteDst a i := by
  cases i <;> cases h <;> exact id

theorem written_of_fits {s : State} {off : Nat} {bs : List Byte} (h : BytesFit s off bs) : written s off bs = bs := if_pos h

theorem written_prefix (s : State) (off : Nat) (bs : List Byte) : written s off bs <+: bs := by
  unfold written
  split
  · exact List.prefix_rfl
  · exact List.take_prefix _ _

theorem getElem_written {s : State} {off j : Nat} {bs : List Byte} (hj : j < (written s off bs).length) :
    ∃ h : j < bs.length, (written s off bs)[j] = bs[j] :=
  ⟨hj.trans_le (written_prefix s off bs).length_le, (written_prefix s off bs).getElem hj⟩

/-- A byte that is written lies inside BUF, in the range the command may write. -/
theorem mayWriteBuf_of_written {i : Instr} {s : State} {off a : Nat} {bs : List Byte} (h : encoderBytes i s = some (off, bs))
    (ha : off ≤ a ∧ a - off < (written s off bs).length) : MayWriteBuf s a i ∧ a < s.bufLen := by
  obtain ⟨hlo, hhi⟩ := ha
  obtain ⟨hlt, -⟩ := getElem_written hhi
  refine ⟨(mayWriteBuf_iff h a).2 ⟨hlo, by omega⟩, ?_⟩
  rcases bytesFit_written s off bs with h0 | hfit
  · rw [h0] at hhi; exact absurd hhi (by simp)
  · omega

/-! A command's effect, apart from the state it acts on. -/

/-- What a command does: the response it gives, the bytes it writes from `off` and how many of them are settled, and the element
of DST it writes. -/
structure Effect where
  response : Response
  off : Nat := 0
  bytes : List Byte := []
  settled : Nat := 0
  loaded : Option (Nat × Value) := none

/-- DST after the effect. -/
def Effect.onDst (e : Effect) (dst : Memory 64) : Memory 64 :=
  match e.loaded with
  | none => dst
  | some (didx, v) => dst.write didx v

/-- BUF after the effect, the draws starting at number `d`. -/
def Effect.onBuf (e : Effect) (d : Nat) (buf : Memory 8) : Memory 8 := buf.writeSettled d e.off e.settled e.bytes

/-- The state after a command of this effect. -/
def Effect.apply (e : Effect) (s : State) : State :=
  respond e.response { s with buf := e.onBuf s.draws s.buf, dst := e.onDst s.dst, draws := s.draws + e.settled }

theorem storeFaulted_eq_apply (s : State) (off : Nat) (bs : List Byte) :
    storeFaulted s off bs = Effect.apply
      { response := .fault .bufOutOfRange (max off s.bufLen), off, bytes := bs.take (s.bufLen - off)
        settled := max off s.bufLen - off } s := rfl

theorem sourceFaulted_eq_apply (s : State) (off : Nat) (bs : List Byte) :
    sourceFaulted s off bs = Effect.apply
      { response := .fault .srcOutOfRange s.valsLen, off, bytes := bs, settled := off + bs.length - off } s := rfl

/-- The effect writes no more than the command may, and, when it is no fault, all of it. -/
structure Effect.Within (e : Effect) (i : Instr) (s : State) : Prop where
  bytes_mayWrite : ∀ a, e.off ≤ a ∧ a - e.off < e.bytes.length → MayWriteBuf s a i ∧ a < s.bufLen
  bytes_all : e.response.isFault = false → ∀ a, MayWriteBuf s a i → e.off ≤ a ∧ a - e.off < e.bytes.length
  settled_zero : e.response.isFault = false → e.settled = 0
  decs_stores_nothing : ∀ off didx, i = .decs off didx → e.bytes = [] ∧ e.settled = 0
  loaded_mayWrite : ∀ d v, e.loaded = some (d, v) → MayWriteDst d i ∧ d < s.dstLen ∧ e.response.isFault = false
  loaded_all : e.response.isFault = false → ∀ d, MayWriteDst d i → ∃ v, e.loaded = some (d, v)

/-- An effect that is a response and no more. -/
theorem Effect.within_answer {r : Response} {i : Instr} {s : State} (hbuf : ∀ a, ¬ MayWriteBuf s a i)
    (hdst : r.isFault = false → ∀ d, ¬ MayWriteDst d i) : Effect.Within { response := r } i s where
  bytes_mayWrite _ h := absurd h.2 (Nat.not_lt_zero _)
  bytes_all _ a h := absurd h (hbuf a)
  settled_zero _ := rfl
  decs_stores_nothing _ _ _ := ⟨rfl, rfl⟩
  loaded_mayWrite _ _ h := nomatch h
  loaded_all hr d h := absurd h (hdst hr d)

/-- The effect of a DECS that faults. -/
theorem Effect.within_decsFault (f : Fault) (x off didx : Nat) (s : State) :
    Effect.Within { response := .fault f x } (.decs off didx) s :=
  Effect.within_answer (fun _ => id) fun hf => nomatch hf

/-- The effect of an encoder. -/
theorem Effect.within_store {r : Response} {i : Instr} {s : State} {off k : Nat} {bs : List Byte}
    (hb : encoderBytes i s = some (off, bs)) (hr : r.isFault = false → BytesFit s off bs ∧ k = 0) :
    Effect.Within { response := r, off, bytes := written s off bs, settled := k } i s where
  bytes_mayWrite _ ha := mayWriteBuf_of_written hb ha
  bytes_all hf a ha := by
    have hrange := (mayWriteBuf_iff hb a).1 ha
    simp only [written_of_fits (hr hf).1]
    omega
  settled_zero hf := (hr hf).2
  decs_stores_nothing _ _ hi := by subst hi; exact nomatch hb
  loaded_mayWrite _ _ h := nomatch h
  loaded_all _ d h := absurd h (not_mayWriteDst_of_encoderBytes hb d)

/-- The effect of a DECS that completes. -/
theorem Effect.within_load {s : State} {off didx o : Nat} {v : Value} (hd : didx < s.dstLen) :
    Effect.Within { response := .offset o, loaded := some (didx, v) } (.decs off didx) s where
  bytes_mayWrite _ h := absurd h.2 (Nat.not_lt_zero _)
  bytes_all _ _ h := h.elim
  settled_zero _ := rfl
  decs_stores_nothing _ _ _ := ⟨rfl, rfl⟩
  loaded_mayWrite _ _ h := by cases h; exact ⟨rfl, hd, rfl⟩
  loaded_all _ d h := by cases h; exact ⟨v, rfl⟩

/-! What a command's effect depends on. -/

/-- Two states that a command cannot tell apart: alike in the capacities, for ENCUB in the first CNT elements of VALS, for DECS in the
ten bytes from OFF that lie in BUF. -/
structure ReadsAlike (i : Instr) (s s' : State) : Prop where
  bufLen : s'.bufLen = s.bufLen
  valsLen : s'.valsLen = s.valsLen
  dstLen : s'.dstLen = s.dstLen
  vals : ∀ cnt off, i = .encub cnt off → ∀ a < cnt, s'.vals.read a = s.vals.read a
  buf : ∀ off didx, i = .decs off didx → ∀ j < 10, off + j < s.bufLen → s'.buf.read (off + j) = s.buf.read (off + j)

theorem ReadsAlike.refl (i : Instr) (s : State) : ReadsAlike i s s :=
  ⟨rfl, rfl, rfl, fun _ _ _ _ _ => rfl, fun _ _ _ _ _ _ => rfl⟩

theorem ReadsAlike.bytesFit_iff {i : Instr} {s s' : State} (h : ReadsAlike i s s') {off : Nat} {bs : List Byte} :
    BytesFit s' off bs ↔ BytesFit s off bs := by rw [BytesFit, BytesFit, h.bufLen]

theorem batchBytes_congr {vals vals' : Memory 64} {i k : Nat} (h : ∀ a < i + k, vals'.read a = vals.read a) :
    batchBytes vals' i k = batchBytes vals i k := by
  induction k generalizing i with
  | zero => rfl
  | succ k ih => rw [batchBytes, batchBytes, h i (by omega), ih fun a ha => h a (by omega)]

theorem ReadsAlike.encoderBytes_eq {i : Instr} {s s' : State} (h : ReadsAlike i s s') : encoderBytes i s' = encoderBytes i s := by
  cases i
  case encub cnt off =>
    have hbytes : encubBytes cnt s' = encubBytes cnt s := by
      rw [encubBytes, encubBytes, h.valsLen]
      exact batchBytes_congr fun a ha => h.vals cnt off rfl a (by omega)
    rw [encoderBytes, hbytes, encoderBytes]
  all_goals rfl

theorem VarintAt.congr {buf buf' : Memory 8} {off n : Nat} (h : VarintAt buf off n)
    (hr : ∀ j < n, buf'.read (off + j) = buf.read (off + j)) : VarintAt buf' off n := by
  obtain ⟨hpos, hten, hmore, hlast⟩ := h
  exact ⟨hpos, hten, fun j hj => by rw [hr j (by omega), hmore j hj], by rw [hr _ (by omega), hlast]⟩

theorem accBits_congr {buf buf' : Memory 8} {off n : Nat} (hr : ∀ j < n, buf'.read (off + j) = buf.read (off + j)) :
    accBits buf' off n = accBits buf off n := by
  induction n with
  | zero => rfl
  | succ n ih => rw [accBits, accBits, ih fun j hj => hr j (by omega), hr n (by omega)]

/-- The bytes of a varint inside BUF are among those DECS reads. -/
theorem ReadsAlike.varint_bytes {s s' : State} {off didx n : Nat} (h : ReadsAlike (.decs off didx) s s') (hv : VarintAt s.buf off n)
    (hin : off + n ≤ s.bufLen) : ∀ j < n, s'.buf.read (off + j) = s.buf.read (off + j) := by
  have hten : n ≤ 10 := hv.2.1
  exact fun j hj => h.buf off didx rfl j (by omega) (by omega)

/-- Each end of a command is an effect that a state it cannot tell apart suffers alike. -/
theorem Ends.effect {i : Instr} {s t : State} (h : Ends s i t) :
    ∃ e : Effect, e.Within i s ∧ ∀ s', ReadsAlike i s s' → Ends s' i (e.apply s') := by
  cases h with
  | sizeu v => exact ⟨_, Effect.within_answer (fun _ => id) fun _ _ => id, fun s' _ => .sizeu v⟩
  | sizes v => exact ⟨_, Effect.within_answer (fun _ => id) fun _ _ => id, fun s' _ => .sizes v⟩
  | @stored i off bs hb hfit hc =>
    refine ⟨_, Effect.within_store (k := 0) (r := .offset (off + bs.length)) hb fun _ => ⟨hfit, rfl⟩, fun s' hs => ?_⟩
    rw [written_of_fits hfit]
    exact .stored (hs.encoderBytes_eq.trans hb) (hs.bytesFit_iff.2 hfit) (hs.valsLen.symm ▸ hc)
  | @storeFaulted i off bs hb hfit =>
    refine ⟨_, Effect.within_store (k := max off s.bufLen - off) (r := .fault .bufOutOfRange (max off s.bufLen)) hb
      (fun hf => nomatch hf), fun s' hs => ?_⟩
    have hend := Ends.storeFaulted (hs.encoderBytes_eq.trans hb) (mt hs.bytesFit_iff.1 hfit)
    rw [storeFaulted_eq_apply, hs.bufLen] at hend
    rw [written, if_neg hfit]
    exact hend
  | @sourceFaulted cnt off hlt hfit =>
    refine ⟨_, Effect.within_store (k := off + (encubBytes cnt s).length - off) (r := .fault .srcOutOfRange s.valsLen) rfl
      (fun hf => nomatch hf), fun s' hs => ?_⟩
    have hbytes : encubBytes cnt s' = encubBytes cnt s := by simpa [encoderBytes] using hs.encoderBytes_eq
    have hend := Ends.sourceFaulted (s := s') (cnt := cnt) (off := off) (hs.valsLen.symm ▸ hlt)
      (by rw [hbytes]; exact hs.bytesFit_iff.2 hfit)
    rw [sourceFaulted_eq_apply, hs.valsLen, hbytes] at hend
    rw [written_of_fits hfit]
    exact hend
  | @loaded off didx n hv hin hd =>
    refine ⟨_, Effect.within_load (o := off + n) (v := unzigzag (accBits s.buf off n)) hd, fun s' hs => ?_⟩
    have hbytes := hs.varint_bytes hv hin
    rw [← accBits_congr hbytes]
    exact .loaded (hv.congr hbytes) (hs.bufLen.symm ▸ hin) (hs.dstLen.symm ▸ hd)
  | outside hout =>
    exact ⟨_, Effect.within_decsFault _ _ _ _ _, fun s' hs => .outside (hs.bufLen.symm ▸ hout)⟩
  | overLong hover =>
    refine ⟨_, Effect.within_decsFault _ _ _ _ _, fun s' hs => .overLong ?_⟩
    obtain ⟨hin, hmore⟩ := hover
    exact ⟨hs.bufLen.symm ▸ hin, fun j hj => by rw [hs.buf _ _ rfl j hj (by omega), hmore j hj]⟩
  | runsOut hruns =>
    refine ⟨_, Effect.within_decsFault .bufOutOfRange s.bufLen _ _ _, fun s' hs => ?_⟩
    obtain ⟨hlt, hnine, hmore⟩ := hruns
    rw [← hs.bufLen]
    exact .runsOut ⟨hs.bufLen.symm ▸ hlt, hs.bufLen.symm ▸ hnine, fun j hj => by
      rw [hs.bufLen] at hj
      rw [hs.buf _ _ rfl j (by omega) (by omega), hmore j hj]⟩
  | @noRoom off didx n hv hin hd =>
    refine ⟨_, Effect.within_decsFault .dstOutOfRange didx _ _ _, fun s' hs => ?_⟩
    exact .noRoom (hv.congr (hs.varint_bytes hv hin)) (hs.bufLen.symm ▸ hin) (hs.dstLen.symm ▸ hd)

/-- A command that answers has an effect, and exec is that effect in every state the command cannot tell apart. -/
theorem exec_effect {i : Instr} {s t : State} (h : exec i s = .next t) :
    ∃ e : Effect, e.Within i s ∧ t = e.apply s ∧ ∀ s', ReadsAlike i s s' → exec i s' = .next (e.apply s') := by
  obtain ⟨e, hwithin, hends⟩ := (ends_of_exec h).effect
  have hexec : ∀ s', ReadsAlike i s s' → exec i s' = .next (e.apply s') := fun s' hs => (hends s' hs).exec_eq
  have hs := hexec s (.refl i s)
  rw [h, Host.Outcome.next.injEq] at hs
  exact ⟨e, hwithin, hs, hexec⟩

/-! What a command writes. -/

/-- Outside what the command may write, BUF keeps its contents, whatever they and the draws are. -/
theorem Effect.read_onBuf_of_not_mayWrite {e : Effect} {i : Instr} {s : State} (he : e.Within i s) {a : Nat}
    (ha : ¬ (MayWriteBuf s a i ∧ a < s.bufLen)) (d : Nat) (buf : Memory 8) : (e.onBuf d buf).read a = buf.read a := by
  rw [Effect.onBuf, Memory.read_writeSettled, dif_neg fun h => ha (he.bytes_mayWrite a h.1)]

/-- An element of DST that the command may not write, or that a fault kept it from writing, is as it was. -/
theorem Effect.read_onDst_of_not_mayWrite {e : Effect} {i : Instr} {s : State} (he : e.Within i s) {a : Nat}
    (ha : ¬ (MayWriteDst a i ∧ a < s.dstLen ∧ e.response.isFault = false)) (dst : Memory 64) : (e.onDst dst).read a = dst.read a := by
  rw [Effect.onDst]
  split
  next => rfl
  next didx v hl =>
    have hne : a ≠ didx := fun h => ha (he.loaded_mayWrite a v (h ▸ hl))
    rw [Memory.read_write, if_neg hne]

/-- The element a command that completes writes does not depend on the DST it is written to. -/
theorem Effect.read_onDst_of_mayWrite {e : Effect} {i : Instr} {s : State} (he : e.Within i s) (hf : e.response.isFault = false)
    {a : Nat} (ha : MayWriteDst a i) (dst dst' : Memory 64) : (e.onDst dst').read a = (e.onDst dst).read a := by
  obtain ⟨v, hl⟩ := he.loaded_all hf a ha
  simp [Effect.onDst, hl]

/-- Settles O35: an effect leaves all fields but BUF and DST, and of these what it does not write. -/
theorem commandsWriteOnlyTheirOwn : Obligations.CommandsWriteOnlyTheirOwn := by
  intro i s t h
  obtain ⟨e, he, rfl, -⟩ := exec_effect h
  exact ⟨rfl, rfl, rfl, rfl, rfl, rfl, fun a ha => e.read_onBuf_of_not_mayWrite he ha _ _,
    fun a ha => e.read_onDst_of_not_mayWrite he (fun h => ha ⟨h.1, h.2.1⟩) _⟩

/-! What a command reads. -/

theorem Effect.onBuf_decs {e : Effect} {s : State} {off didx : Nat} (he : e.Within (.decs off didx) s) (d : Nat) (buf : Memory 8) :
    e.onBuf d buf = buf := by
  obtain ⟨hbytes, hsettled⟩ := he.decs_stores_nothing off didx rfl
  simp [Effect.onBuf, hbytes, hsettled, Memory.writeSettled, Memory.writeAll]

/-- With other contents of VALS that it cannot tell apart, a command does the same and leaves those contents. -/
theorem exec_with_vals {i : Instr} {s t : State} {vals' : Memory 64} (h : exec i s = .next t)
    (hr : ∀ cnt off, i = .encub cnt off → ∀ a < cnt, vals'.read a = s.vals.read a) :
    exec i { s with vals := vals' } = .next { t with vals := vals' } := by
  obtain ⟨e, -, rfl, hexec⟩ := exec_effect h
  exact hexec { s with vals := vals' } ⟨rfl, rfl, rfl, hr, fun _ _ _ _ _ _ => rfl⟩

theorem execDecs_with_buf {off didx : Nat} {s t : State} {buf' : Memory 8} (h : exec (.decs off didx) s = .next t)
    (hr : ∀ j < 10, off + j < s.bufLen → buf'.read (off + j) = s.buf.read (off + j)) :
    exec (.decs off didx) { s with buf := buf' } = .next { t with buf := buf' } := by
  obtain ⟨e, he, rfl, hexec⟩ := exec_effect h
  have heq := hexec { s with buf := buf' } ⟨rfl, rfl, rfl, (fun _ _ hi => nomatch hi), fun _ _ hi => by cases hi; exact hr⟩
  rw [heq, Effect.apply, e.onBuf_decs he]
  rfl

/-- With other contents of BUF, a command that is not DECS writes the same bytes over them, and settles the same of them. -/
theorem exec_with_buf {i : Instr} {s t : State} {r : Response} (buf' : Memory 8) (hi : ∀ off didx, i ≠ .decs off didx)
    (h : exec i s = .next t) (hr : t.response = some r) :
    ∃ m, exec i { s with buf := buf' } = .next { t with buf := m } ∧
      (∀ a, m.read a = t.buf.read a ∨ m.read a = buf'.read a ∧ t.buf.read a = s.buf.read a) ∧
      (∀ a, ¬ MayWriteBuf s a i → m.read a = buf'.read a) ∧
      (r.isFault = false → ∀ a, MayWriteBuf s a i → m.read a = t.buf.read a) := by
  obtain ⟨e, he, rfl, hexec⟩ := exec_effect h
  cases hr
  refine ⟨e.onBuf s.draws buf',
    hexec { s with buf := buf' } ⟨rfl, rfl, rfl, fun _ _ _ _ _ => rfl, fun off didx h => absurd h (hi off didx)⟩,
    fun a => ?_, fun a ha => e.read_onBuf_of_not_mayWrite he (fun h => ha h.1) _ _, fun hf a ha => ?_⟩
  · rcases Memory.read_writeSettled_cases s.buf buf' s.draws e.off e.settled e.bytes a with ⟨_, hs, hs'⟩ | ⟨hs, hs'⟩
    · exact .inl (hs'.trans hs.symm)
    · exact .inr ⟨hs', hs⟩
  · have hrange := he.bytes_all hf a ha
    have hread : ∀ m : Memory 8, (e.onBuf s.draws m).read a = e.bytes[a - e.off]'hrange.2 := fun m => by
      rw [Effect.onBuf, he.settled_zero hf, Memory.read_writeSettled_zero _ _ _ _ _ hrange]
    exact (hread buf').trans (hread s.buf).symm

/-- With other contents of DST, a command does the same, and writes the same element over them. -/
theorem exec_with_dst {i : Instr} {s t : State} {r : Response} (dst' : Memory 64) (h : exec i s = .next t)
    (hr : t.response = some r) :
    ∃ m, exec i { s with dst := dst' } = .next { t with dst := m } ∧
      (∀ a, ¬ (MayWriteDst a i ∧ r.isFault = false) → m.read a = dst'.read a) ∧
      (r.isFault = false → ∀ a, MayWriteDst a i → m.read a = t.dst.read a) := by
  obtain ⟨e, he, rfl, hexec⟩ := exec_effect h
  cases hr
  exact ⟨e.onDst dst',
    hexec { s with dst := dst' } ⟨rfl, rfl, rfl, fun _ _ _ _ _ => rfl, fun _ _ _ _ _ _ => rfl⟩,
    fun a ha => e.read_onDst_of_not_mayWrite he (fun h => ha ⟨h.1, h.2.2⟩) _,
    fun hf a ha => e.read_onDst_of_mayWrite he hf ha _ _⟩

/-- Settles O36: the effect of a command is the same in every state it cannot tell apart. -/
theorem commandsReadOnlyTheirOwn : Obligations.CommandsReadOnlyTheirOwn := by
  refine ⟨fun cnt off vals' s t hr h => exec_with_vals h fun _ _ hi => ?_,
    fun i vals' s t hi h => exec_with_vals h fun cnt off hencub => absurd hencub (hi cnt off),
    fun off didx buf' s t hr h => execDecs_with_buf h hr,
    fun i buf' s t r hi h hr => exec_with_buf buf' hi h hr,
    fun i dst' s t r h hr => exec_with_dst dst' h hr⟩
  cases hi
  exact hr

theorem SameMemories.readsAlike {s s' : State} (h : SameMemories s s') (i : Instr) : ReadsAlike i s s' := by
  obtain ⟨hbufLen, hbuf, hvalsLen, hvals, hdstLen, -⟩ := h
  exact ⟨hbufLen, hvalsLen, hdstLen, fun _ _ _ _ _ => by rw [hvals], fun _ _ _ _ _ _ => by rw [hbuf]⟩

/-- From the same memories an effect leaves the same memories, if it settles nothing or draws alike. -/
theorem Effect.apply_sameMemories {e : Effect} {s s' : State} (h : SameMemories s s') (hd : e.settled = 0 ∨ s'.draws = s.draws) :
    SameMemories (e.apply s) (e.apply s') := by
  obtain ⟨hbufLen, hbuf, hvalsLen, hvals, hdstLen, hdst⟩ := h
  have hbuf' : e.onBuf s'.draws s'.buf = e.onBuf s.draws s.buf := by
    rw [hbuf]
    rcases hd with hd | hd
    · simp only [Effect.onBuf, Memory.writeSettled, hd, Memory.settle_zero]
    · rw [hd]
  exact ⟨hbufLen, hbuf', hvalsLen, hvals, hdstLen, congrArg e.onDst hdst⟩

/-- Settles O37: the memories decide the effect, and with the draws they decide what it leaves. -/
theorem nothingSurvivesACommand : Obligations.NothingSurvivesACommand := by
  intro i s s' t t' hsame h h'
  obtain ⟨e, he, rfl, hexec⟩ := exec_effect h
  have heq := hexec s' (hsame.readsAlike i)
  rw [h', Host.Outcome.next.injEq] at heq
  subst heq
  refine ⟨rfl, rfl, rfl, rfl, rfl, fun r hr hf => ?_, fun hd => ?_⟩
  · cases hr
    exact e.apply_sameMemories hsame (.inl (he.settled_zero hf))
  · exact ⟨e.apply_sameMemories hsame (.inr hd), congrArg (· + e.settled) hd⟩

/-! What a step leaves unchanged. -/

/-- A command in flight, legal or not, answers (rules R31, R65). -/
theorem runCommand_answers (c : Cmd) (s : State) : ∃ t r, runCommand c s = .next t ∧ Answered r s t := by
  rw [runCommand]
  cases decode c with
  | error e => exact ⟨_, .fault .illegalCommand 0, rfl, ⟨rfl, rfl, rfl, rfl, rfl, rfl, rfl, rfl, rfl, rfl⟩⟩
  | ok i =>
    obtain ⟨t, ht, hends⟩ := exec_ends i s
    obtain ⟨r, ha⟩ := hends.answered
    exact ⟨t, r, ht, ha⟩

/-- Settles O10: the step is the command's run, and that answers. -/
theorem everyCommandAnswersOnce : Obligations.EveryCommandAnswersOnce := by
  intro s c hc hr
  rw [step_command hc hr]
  exact runCommand_answers c s

/-- What a reset does not touch (rules R27, R140). -/
theorem acceptReset_frame (s : State) :
    (acceptReset s).offW = s.offW ∧ (acceptReset s).bufLen = s.bufLen ∧ (acceptReset s).valsLen = s.valsLen ∧
      (acceptReset s).vals = s.vals ∧ (acceptReset s).dstLen = s.dstLen ∧ (acceptReset s).host = s.host ∧
      (acceptReset s).received = s.received := by
  obtain ⟨i, hab⟩ := abortInFlight_aborted s
  obtain ⟨hoffW, hbufLen, hvalsLen, hvals, hdstLen, -, -, hhost, hreceived⟩ := hab.frame
  exact ⟨hoffW, hbufLen, hvalsLen, hvals, hdstLen, hhost, hreceived⟩

theorem hostMove_offW {mv : HostMove} {s t : State} (h : hostMove mv s = .next t) : t.offW = s.offW := by
  cases mv <;> simp only [hostMove] at h
  case reset => cases h; exact (acceptReset_frame s).1
  case readResponse => cases h; rfl
  all_goals split at h <;> cases h; rfl

theorem hostTurn_offW {s t : State} (h : hostTurn s = .next t) : t.offW = s.offW := by
  unfold hostTurn at h
  split at h
  · cases h; rfl
  · simpa only using hostMove_offW h

theorem resetPending_iff {s : State} : resetPending s = true ↔ ∃ rest, s.host = .reset :: rest := by
  unfold resetPending
  split
  next rest hhost => simp [hhost]
  next hne => simpa using fun rest => hne rest

/-- Settles O46: a command in flight answers or a reset abandons it, and an idle block's host changes no OFF_W. -/
theorem constantsStayFixed : Obligations.ConstantsStayFixed := by
  intro s t h
  cases hc : s.cmd with
  | none =>
    rw [step_idle hc] at h
    exact ⟨hostTurn_offW h, fun hne => absurd rfl hne⟩
  | some c =>
    cases hr : resetPending s with
    | true =>
      obtain ⟨rest, hhost⟩ := resetPending_iff.1 hr
      rw [step_reset hhost] at h
      cases h
      obtain ⟨hoffW, hbufLen, hvalsLen, hvals, hdstLen, -⟩ := acceptReset_frame { s with host := rest }
      exact ⟨hoffW, fun _ => ⟨hbufLen, hvalsLen, hdstLen, hvals⟩⟩
    | false =>
      obtain ⟨t', r, ht', ha⟩ := runCommand_answers c s
      rw [step_command hc hr, ht'] at h
      cases h
      exact ⟨ha.offW, fun _ => ⟨ha.bufLen, ha.valsLen, ha.dstLen, ha.vals⟩⟩

theorem Memory.sound_nil (w len : Nat) : Memory.Sound ([] : Memory w) len := ⟨⟨.nil, by simp⟩, by simp⟩

/-- Settles O42: the reset state has empty memories, capacities that are numerals, and nothing in flight or recorded. -/
theorem resetIsIdleAndSound : Obligations.ResetIsIdleAndSound := by
  refine ⟨⟨rfl, rfl, rfl⟩, rfl, ?_⟩
  obtain ⟨hbufWf, hbufIn⟩ := Memory.sound_nil 8 State.reset.bufLen
  obtain ⟨hvalsWf, hvalsIn⟩ := Memory.sound_nil 64 State.reset.valsLen
  obtain ⟨hdstWf, hdstIn⟩ := Memory.sound_nil 64 State.reset.dstLen
  exact {
    bufWf := hbufWf
    bufWithin := hbufIn
    bufLen_lt := by decide
    valsWf := hvalsWf
    valsWithin := hvalsIn
    valsLen_lt := by decide
    dstWf := hdstWf
    dstWithin := hdstIn
    dstLen_lt := by decide
    cmdFits := fun _ h => nomatch h
    workNone := rfl
    responseLegal := fun _ h => nomatch h
    receivedLegal := fun _ h => nomatch h }

/-! What a reset leaves of the command in flight. -/

theorem abortInFlight_of_idle {s : State} (h : s.cmd = none) : abortInFlight s = s := by simp [abortInFlight, h]

theorem abortInFlight_of_illegal {s : State} {c : Cmd} {e : DecodeError} (hc : s.cmd = some c) (hd : decode c = .error e) :
    abortInFlight s = s := by simp [abortInFlight, hc, hd]

theorem abortInFlight_of_legal {s : State} {c : Cmd} {i : Instr} (hc : s.cmd = some c) (hd : decode c = .ok i) :
    abortInFlight s = abortInstr s i := by simp [abortInFlight, hc, hd]

/-- How a command is cut short does not depend on the host's moves. -/
theorem Aborted.of_with_host {s t : State} {i : Instr} {moves : List HostMove} (h : Aborted { s with host := moves } i t) :
    Aborted s i { t with host := s.host } := by
  have hbytes : encoderBytes i { s with host := moves } = encoderBytes i s := by cases i <;> rfl
  cases h with
  | nothing => exact .nothing i
  | stores wk hb => exact .stores wk (hbytes.symm.trans hb)
  | loads wk hv hin hd => exact .loads wk hv hin hd

/-- Each byte of BUF is old or, inside BUF, the byte of the encoder that belongs there. -/
theorem Aborted.read_buf {s t : State} {i : Instr} (h : Aborted s i t) (a : Nat) :
    t.buf.read a = s.buf.read a ∨ ∃ off bs, encoderBytes i s = some (off, bs) ∧ off ≤ a ∧ a < s.bufLen ∧
      ∃ ha : a - off < bs.length, t.buf.read a = bs[a - off] := by
  cases h with
  | nothing | loads => exact .inl rfl
  | @stores _ off bs wk hb =>
    rcases Memory.read_writeSettled_cases s.buf s.buf s.draws off _ (written s off bs) a with ⟨hrange, hread, -⟩ | ⟨hread, -⟩
    · obtain ⟨-, hin⟩ := mayWriteBuf_of_written hb hrange
      obtain ⟨hlt, heq⟩ := getElem_written hrange.2
      exact .inr ⟨off, bs, hb, hrange.1, hin, hlt, hread.trans heq⟩
    · exact .inl hread

theorem Aborted.buf_old_or_stored {s t : State} {i : Instr} (h : Aborted s i t) (a : Nat) :
    t.buf.read a = s.buf.read a ∨ MayWriteBuf s a i ∧ a < s.bufLen ∧ (t.buf.read a).toNat = storedLayout s a i := by
  rcases h.read_buf a with hold | ⟨off, bs, hb, hlo, hin, hlt, hnew⟩
  · exact .inl hold
  · exact .inr ⟨(mayWriteBuf_iff hb a).2 ⟨hlo, by omega⟩, hin, by rw [hnew, getElem_storedLayout hb]⟩

/-- An encoder that is no fault stored its bytes. -/
theorem Ends.eq_stored {s u : State} {i : Instr} {r : Response} {off : Nat} {bs : List Byte} (h : Ends s i u)
    (hb : encoderBytes i s = some (off, bs)) (hr : u.response = some r) (hf : r.isFault = false) : u = Machine.stored s off bs := by
  cases h with
  | stored hb' => rw [hb, Option.some.injEq, Prod.mk.injEq] at hb'; obtain ⟨rfl, rfl⟩ := hb'; rfl
  | storeFaulted | sourceFaulted => cases hr; cases hf
  | sizeu | sizes | loaded | outside | overLong | runsOut | noRoom => cases hb

/-- For a command that would complete, each byte of BUF is old or as it would have left it. -/
theorem Aborted.buf_old_or_left {s t u : State} {i : Instr} {r : Response} (h : Aborted s i t) (hu : exec i s = .next u)
    (hr : u.response = some r) (hf : r.isFault = false) (a : Nat) : t.buf.read a = s.buf.read a ∨ t.buf.read a = u.buf.read a := by
  rcases h.read_buf a with hold | ⟨off, bs, hb, hlo, -, hlt, hnew⟩
  · exact .inl hold
  · rw [(ends_of_exec hu).eq_stored hb hr hf, read_stored, dif_pos ⟨hlo, hlt⟩]
    exact .inr hnew

/-- Each element of DST is old or, for a DECS that would complete, the one it would leave at DIDX. -/
theorem Aborted.dst_old_or_left {s t u : State} {i : Instr} {r : Response} (h : Aborted s i t) (hu : exec i s = .next u)
    (hr : u.response = some r) (a : Nat) :
    t.dst.read a = s.dst.read a ∨ MayWriteDst a i ∧ a < s.dstLen ∧ r.isFault = false ∧ t.dst.read a = u.dst.read a := by
  cases h with
  | nothing | stores => exact .inl rfl
  | @loads off didx n wk hv hin hd =>
    rw [execDecs_loads hv hin hd, Host.Outcome.next.injEq] at hu
    subst hu
    cases hr
    simp only [loaded, respond_dst, Memory.read_settle, Memory.read_write]
    by_cases ha : a = didx
    · subst ha
      split
      · exact .inl rfl
      · exact .inr ⟨rfl, hd, rfl, rfl⟩
    · rw [if_neg ha]
      exact .inl (ite_self _)

theorem Aborted.decs_fault {s t u : State} {off didx : Nat} {r : Response} (h : Aborted s (.decs off didx) t)
    (hu : exec (.decs off didx) s = .next u) (hr : u.response = some r) (hf : r.isFault = true) : t.buf = s.buf ∧ t.dst = s.dst := by
  cases h with
  | nothing => exact ⟨rfl, rfl⟩
  | stores wk hb => cases hb
  | loads wk hv hin hd =>
    rw [execDecs_loads hv hin hd, Host.Outcome.next.injEq] at hu
    subst hu
    cases hr
    cases hf

/-- Settles O45: the reset leaves an idle block, and of the memories what the command cut short leaves. -/
theorem resetAbandonsTheCommand : Obligations.ResetAbandonsTheCommand := by
  intro s rest hhost
  obtain ⟨hoffW, hbufLen, hvalsLen, hvals, hdstLen, hmoves, hreceived⟩ := acceptReset_frame { s with host := rest }
  refine ⟨_, step_reset hhost, ⟨rfl, rfl, rfl⟩, hmoves, hreceived, hvals, hoffW, hbufLen, hvalsLen, hdstLen,
    fun hc => ?_, fun c e hc hd => ?_, fun c i u r hc hd hu hr => ?_⟩
  · rw [acceptReset, abortInFlight_of_idle (s := { s with host := rest }) hc]
    exact ⟨rfl, rfl⟩
  · rw [acceptReset, abortInFlight_of_illegal (s := { s with host := rest }) hc hd]
    exact ⟨rfl, rfl⟩
  · rw [acceptReset, abortInFlight_of_legal (s := { s with host := rest }) hc hd]
    have hab := (abortInstr_aborted i { s with host := rest }).of_with_host
    refine ⟨hab.buf_old_or_stored, hab.dst_old_or_left hu hr, hab.buf_old_or_left hu hr, ?_⟩
    rintro ⟨off, didx, rfl⟩ hf
    exact hab.decs_fault hu hr hf

end Sys2Proof.Machine
end

section
/-! The proofs about the memories' own rules: the four access primitives, and a command repeated on the state it left. -/

namespace Sys2Proof.Machine

/-! The four access primitives, outside and inside the container (rules R42 to R44). -/

theorem bufRead_outside {i : Nat} {s : State} (h : s.bufLen ≤ i) : bufRead i s = .raise .bufOutOfRange i s := if_pos h

theorem bufRead_inside {i : Nat} {s : State} (h : i < s.bufLen) :
    bufRead i s = .go { s with work := { s.work with b := s.buf.read i } } := if_neg h.not_ge

theorem bufWrite_outside {i : Nat} {b : Byte} {s : State} (h : s.bufLen ≤ i) :
    bufWrite i b s = .raise .bufOutOfRange i s := if_pos h

theorem bufWrite_inside {i : Nat} {b : Byte} {s : State} (h : i < s.bufLen) :
    bufWrite i b s = .go { s with buf := s.buf.write i b } := if_neg h.not_ge

theorem valsRead_outside {i : Nat} {s : State} (h : s.valsLen ≤ i) : valsRead i s = .raise .srcOutOfRange i s := if_pos h

theorem valsRead_inside {i : Nat} {s : State} (h : i < s.valsLen) :
    valsRead i s = .go { s with work := { s.work with rem := s.vals.read i } } := if_neg h.not_ge

theorem dstWrite_outside {i : Nat} {v : Value} {s : State} (h : s.dstLen ≤ i) :
    dstWrite i v s = .raise .dstOutOfRange i s := if_pos h

theorem dstWrite_inside {i : Nat} {v : Value} {s : State} (h : i < s.dstLen) :
    dstWrite i v s = .go { s with dst := s.dst.write i v } := if_neg h.not_ge

theorem Memory.read_write_same {w : Nat} (m : Memory w) (i : Nat) (v : BitVec w) : (m.write i v).read i = v := by simp

theorem Memory.read_write_other {w : Nat} (m : Memory w) {i a : Nat} (v : BitVec w) (h : a ≠ i) :
    (m.write i v).read a = m.read a := by simp [h]

/-- Settles O39: each primitive is its range test, and a write in range changes the element it names. -/
theorem accessPrimitivesCheckTheRange : Obligations.AccessPrimitivesCheckTheRange := fun _ b v s =>
  ⟨fun h => ⟨bufRead_outside h, bufWrite_outside h⟩, valsRead_outside, dstWrite_outside, bufRead_inside, valsRead_inside,
    fun h => ⟨_, bufWrite_inside h, s.buf.read_write_same _ b, fun _ => s.buf.read_write_other b⟩,
    fun h => ⟨_, dstWrite_inside h, s.dst.read_write_same _ v, fun _ => s.dst.read_write_other v⟩⟩

/-! A command repeated on the state it left (R48). -/

/-- The command reads on the state it left what it read before: no command writes VALS, and DECS does not write BUF. -/
theorem Effect.Within.readsAlike_apply {e : Effect} {i : Instr} {s : State} (he : e.Within i s) :
    ReadsAlike i s (e.apply s) := by
  refine ⟨rfl, rfl, rfl, fun _ _ _ _ _ => rfl, fun off didx hi j _ _ => ?_⟩
  subst hi
  rw [Effect.apply, respond_buf, e.onBuf_decs he]

/-- The same bytes written over themselves leave BUF reading as it did, when none of them is settled. -/
theorem Effect.read_onBuf_onBuf {e : Effect} (h : e.settled = 0) (d d' : Nat) (buf : Memory 8) (a : Nat) :
    (e.onBuf d' (e.onBuf d buf)).read a = (e.onBuf d buf).read a := by
  simp only [Effect.onBuf, Memory.writeSettled, h, Memory.settle_zero, Memory.read_writeAll]
  split <;> rfl

theorem Effect.read_onDst_onDst (e : Effect) (dst : Memory 64) (a : Nat) :
    (e.onDst (e.onDst dst)).read a = (e.onDst dst).read a := by
  unfold Effect.onDst
  cases e.loaded with
  | none => rfl
  | some p =>
    simp only [Memory.read_write]
    split <;> rfl

/-- Settles O38: the repetition has the effect of the command, and that effect, without a fault, is idempotent. -/
theorem repeatingACommandChangesNothing : Obligations.RepeatingACommandChangesNothing := by
  intro i s t u r h hr hf hu
  obtain ⟨e, he, rfl, hexec⟩ := exec_effect h
  cases hr
  have hrepeat := hexec _ he.readsAlike_apply
  rw [hu, Host.Outcome.next.injEq] at hrepeat
  subst hrepeat
  exact ⟨rfl, e.read_onBuf_onBuf (he.settled_zero hf) _ _ _, e.read_onDst_onDst _⟩

end Sys2Proof.Machine
end

section
/-! The proofs about the encoding: the CMD record as a bit vector, the decoder and the encoder against each other, the fields a
command ignores, the step against the decoder, where an offset response ends, and the response record. -/

namespace Sys2Proof

open Sys2Proof.Laws

/-! CMD as one vector (rule R66). -/

theorem Cmd.fits_iff {offW : Nat} {c : Cmd} : c.fits offW = true ↔ c.aux < 2 ^ offW ∧ c.off < 2 ^ offW := by
  simp only [Cmd.fits, Bool.and_eq_true, Machine.indexFits_iff, Config.indexBound]

/-- A concatenation as a number: the low part stands below the high one, so that nothing carries. -/
theorem toNat_append_eq_add {m n : Nat} (x : BitVec m) (y : BitVec n) : (x ++ y).toNat = x.toNat * 2 ^ n + y.toNat := by
  rw [BitVec.toNat_append, ← Nat.shiftLeft_add_eq_or_of_lt y.isLt, Nat.shiftLeft_eq]

theorem toNat_ofNat_of_lt {w n : Nat} (h : n < 2 ^ w) : (BitVec.ofNat w n).toNat = n := by
  rw [BitVec.toNat_ofNat, Nat.mod_eq_of_lt h]

theorem Cmd.toNat_toBits {offW : Nat} {c : Cmd} (h : c.fits offW = true) : (c.toBits offW).toNat =
    c.op.toNat * 2 ^ (64 + 2 * offW) + c.aux * 2 ^ (64 + offW) + c.off * 2 ^ 64 + c.val.toNat := by
  obtain ⟨haux, hoff⟩ := Cmd.fits_iff.1 h
  simp only [Cmd.toBits, BitVec.toNat_cast, toNat_append_eq_add, toNat_ofNat_of_lt haux, toNat_ofNat_of_lt hoff]
  ring

/-- A field that lies in the high part of a concatenation is the field of that part, the low part skipped. -/
theorem extractLsb'_append_skip {m n : Nat} (x : BitVec m) (y : BitVec n) (k len : Nat) :
    (x ++ y).extractLsb' (n + k) len = x.extractLsb' k len := by
  rw [BitVec.extractLsb'_append_eq_of_le (Nat.le_add_right n k), Nat.add_sub_cancel_left]

/-- Each field is cut out of the vector where it was put. -/
theorem Cmd.ofBits_toBits {offW : Nat} {c : Cmd} (h : c.fits offW = true) : Cmd.ofBits offW (c.toBits offW) = c := by
  obtain ⟨haux, hoff⟩ := Cmd.fits_iff.1 h
  have hval : (c.toBits offW).extractLsb' 0 64 = c.val := by
    rw [toBits, BitVec.extractLsb'_cast, BitVec.extractLsb'_append_eq_right]
  have hoffField : (c.toBits offW).extractLsb' (64 + 0) offW = BitVec.ofNat offW c.off := by
    rw [toBits, BitVec.extractLsb'_cast, extractLsb'_append_skip, BitVec.extractLsb'_append_eq_right]
  have hauxField : (c.toBits offW).extractLsb' (64 + (offW + 0)) offW = BitVec.ofNat offW c.aux := by
    rw [toBits, BitVec.extractLsb'_cast, extractLsb'_append_skip, extractLsb'_append_skip, BitVec.extractLsb'_append_eq_right]
  have hop : (c.toBits offW).extractLsb' (64 + (offW + (offW + 0))) 8 = c.op := by
    rw [toBits, BitVec.extractLsb'_cast, extractLsb'_append_skip, extractLsb'_append_skip, extractLsb'_append_skip,
      BitVec.extractLsb'_eq_self]
  rw [Nat.add_zero] at hoffField hauxField hop
  rw [← Nat.two_mul] at hop
  rw [ofBits, hop, hauxField, hoffField, hval, toNat_ofNat_of_lt haux, toNat_ofNat_of_lt hoff]

theorem Cmd.ofBits_fits (offW : Nat) (w : BitVec (Config.cmdWidth offW)) : (Cmd.ofBits offW w).fits offW = true :=
  Cmd.fits_iff.2 ⟨BitVec.isLt _, BitVec.isLt _⟩

/-- The four fields are neighbours, so that together they are the vector. -/
theorem Cmd.toBits_ofBits (offW : Nat) (w : BitVec (Config.cmdWidth offW)) : (Cmd.ofBits offW w).toBits offW = w := by
  simp only [toBits, ofBits, BitVec.ofNat_toNat, BitVec.setWidth_eq]
  rw [BitVec.extractLsb'_append_extractLsb'_eq_extractLsb' (by omega),
    BitVec.extractLsb'_append_extractLsb'_eq_extractLsb' rfl, BitVec.extractLsb'_append_extractLsb'_eq_extractLsb' (by omega)]
  have hwidth : 8 + offW + offW + 64 = Config.cmdWidth offW := by rw [Config.cmdWidth]; omega
  apply BitVec.eq_of_toNat_eq
  rw [BitVec.toNat_cast, BitVec.extractLsb'_toNat, Nat.shiftRight_zero, hwidth, Nat.mod_eq_of_lt w.isLt]

/-- Settles O3: the record's number, and packing and unpacking inverse to each other. -/
theorem commandRecordIsBitVector : Obligations.CommandRecordIsBitVector := fun offW =>
  ⟨fun _ => Cmd.toNat_toBits, fun _ => Cmd.ofBits_toBits, fun w => ⟨Cmd.ofBits_fits offW w, Cmd.toBits_ofBits offW w⟩⟩

/-! The decoder, opcode by opcode (rules R67, R68). -/

section
variable {c : Cmd}

theorem decode_sizeu (h : c.op = 0x01#8) : decode c = .ok (.sizeu c.val) := by rw [decode, h]; rfl

theorem decode_encf32 (h : c.op = 0x02#8) : decode c = .ok (.encf32 (c.val.setWidth 32) c.off) := by
  rw [decode, h, BitVec.setWidth_eq_extractLsb' (by decide)]; rfl

theorem decode_encu (h : c.op = 0x03#8) : decode c = .ok (.encu c.val c.off) := by rw [decode, h]; rfl

theorem decode_encub (h : c.op = 0x04#8) : decode c = .ok (.encub c.aux c.off) := by rw [decode, h]; rfl

theorem decode_sizes (h : c.op = 0x05#8) : decode c = .ok (.sizes c.val) := by rw [decode, h]; rfl

theorem decode_encs (h : c.op = 0x06#8) : decode c = .ok (.encs c.val c.off) := by rw [decode, h]; rfl

theorem decode_decs (h : c.op = 0x07#8) : decode c = .ok (.decs c.off c.aux) := by rw [decode, h]; rfl

theorem decode_illegal (h : c.op = 0x00#8 ∨ 0x08 ≤ c.op.toNat) : decode c = .error (.illegalOpcode c.op) := by
  have hop : c.op.toNat = 0x00 ∨ 0x08 ≤ c.op.toNat := h.imp_left (congrArg BitVec.toNat)
  unfold decode
  split
  case h_8 => rfl
  all_goals omega

end

/-- Settles O4, row by row of the opcode map. -/
theorem opcodeMapDecodes : Obligations.OpcodeMapDecodes := fun _ =>
  ⟨decode_sizeu, decode_encf32, decode_encu, decode_encub, decode_sizes, decode_encs, decode_decs, decode_illegal⟩

/-! The decoder and the encoder against each other (rules R66, R68, R74). -/

theorem encodedFields (i : Instr) : EncodedFields.Statement i := by
  cases i with
  | sizeu v => exact EncodedFields.sizeu v
  | encf32 w off => exact EncodedFields.encf32 w off
  | encu v off => exact EncodedFields.encu v off
  | encub cnt off => exact EncodedFields.encub cnt off
  | sizes v => exact EncodedFields.sizes v
  | encs v off => exact EncodedFields.encs v off
  | decs off didx => exact EncodedFields.decs off didx

theorem encode_op (i : Instr) : (encode i).op = i.opcode := (encodedFields i).1

theorem encode_fits {offW : Nat} {i : Instr} (h : i.wellFormed offW = true) : (encode i).fits offW = true := by
  obtain ⟨-, -, -, -, hfits⟩ := encodedFields i
  exact hfits offW h

/-- The decoder reads the encoder's record back; of ENCF32's VAL it reads the half that holds the operand. -/
theorem decode_encode (i : Instr) : decode (encode i) = .ok i := by
  cases i with
  | encf32 w off => rw [decode_encf32 rfl, encode, BitVec.setWidth_setWidth_of_le w (by decide), BitVec.setWidth_eq]
  | sizeu v => exact decode_sizeu rfl
  | encu v off => exact decode_encu rfl
  | encub cnt off => exact decode_encub rfl
  | sizes v => exact decode_sizes rfl
  | encs v off => exact decode_encs rfl
  | decs off didx => exact decode_decs rfl

theorem opcode_of_decode {c : Cmd} {i : Instr} (h : decode c = .ok i) : i.opcode = c.op := by
  unfold decode at h
  split at h <;> cases h <;> exact BitVec.eq_of_toNat_eq (Eq.symm ‹_›)

theorem decodeBits_toBits {offW : Nat} {c : Cmd} (h : c.fits offW = true) : decodeBits offW (c.toBits offW) = decode c := by
  rw [decodeBits, Cmd.ofBits_toBits h]

/-- Settles O2: unpacking undoes packing, and decoding undoes encoding. -/
theorem decodeEncodeRoundTrip : Obligations.DecodeEncodeRoundTrip := fun offW i hi => by
  rw [encodeBits, decodeBits_toBits (encode_fits hi), decode_encode]

/-- Settles O6: the operands of a decoded command are fields of its record, and the OP selected the command. -/
theorem decodedCommandIsWellFormed : Obligations.DecodedCommandIsWellFormed := by
  intro c i hd
  have hop := opcode_of_decode hd
  refine ⟨(encode_op i).trans hop, hop, decode_encode i, fun offW hc => ?_⟩
  have hi := Machine.wellFormed_of_decode hc hd
  exact ⟨hi, encode_fits hi, (decodeBits_toBits hc).trans hd⟩

end Sys2Proof

namespace Sys2Proof.Machine

/-! The fields a command ignores (rule R70). -/

theorem runCommand_of_decode {c : Cmd} {i : Instr} {s : State} (h : decode c = .ok i) : runCommand c s = exec i s := by
  rw [runCommand, h]

/-- The machine looks at a record through the decoder only. -/
theorem runCommand_eq_of_decode {c c' : Cmd} {i : Instr} {s : State} (h' : decode c' = .ok i) (h : decode c = .ok i) :
    runCommand c' s = runCommand c s := by
  rw [runCommand_of_decode h', runCommand_of_decode h]

/-- Settles O5: records that differ in unused fields only decode to one command. -/
theorem unusedFieldsChangeNothing : Obligations.UnusedFieldsChangeNothing := by
  intro c aux off hi val s
  refine ⟨?_, fun h => ?_, ?_, ?_⟩
  · rintro (h | h)
    · exact runCommand_eq_of_decode (decode_sizeu h) (decode_sizeu h)
    · exact runCommand_eq_of_decode (decode_sizes h) (decode_sizes h)
  · have hlow : (hi ++ c.val.setWidth 32).setWidth 32 = c.val.setWidth 32 := BitVec.setWidth_append_eq_right
    have hd : decode { c with aux := aux, val := hi ++ c.val.setWidth 32 } =
        .ok (.encf32 ((hi ++ c.val.setWidth 32).setWidth 32) c.off) := decode_encf32 h
    rw [hlow] at hd
    exact runCommand_eq_of_decode hd (decode_encf32 h)
  · rintro (h | h)
    · exact runCommand_eq_of_decode (decode_encu h) (decode_encu h)
    · exact runCommand_eq_of_decode (decode_encs h) (decode_encs h)
  · rintro (h | h)
    · exact runCommand_eq_of_decode (decode_encub h) (decode_encub h)
    · exact runCommand_eq_of_decode (decode_decs h) (decode_decs h)

/-! The step against the decoder (rules R51, R65). -/

theorem step_of_decode {s : State} {c : Cmd} {i : Instr} (hc : s.cmd = some c) (hr : resetPending s = false)
    (hd : decode c = .ok i) : step s = exec i s := by
  rw [step_command hc hr, runCommand_of_decode hd]

theorem decode_of_decodeTableWord {nbits w : Nat} {i : Instr} (h : decodeTableWord nbits w = some i) :
    decode (tableCommand nbits w) = .ok i := by
  unfold decodeTableWord at h
  split at h <;> cases h
  assumption

/-- Settles O7; a presented table word is in flight and no reset stands before it. -/
theorem stepRunsDecodedCommand : Obligations.StepRunsDecodedCommand :=
  ⟨fun _ _ _ => step_of_decode, fun s _ _ _ h =>
    step_of_decode rfl (resetPending_withoutLeadingResets s.host _ rfl) (decode_of_decodeTableWord h)⟩

/-! The offset of a response (rules R71, R89, R93, R104, R116). -/

/-- Where a varint that was written inside BUF ends: it has one to ten bytes. -/
theorem varint_end_range {s : State} {off : Nat} {m : Value} (h : BytesFit s off (varintBytes m)) :
    off < off + (varintBytes m).length ∧ off + (varintBytes m).length ≤ off + 10 ∧
      off + (varintBytes m).length ≤ s.bufLen := by
  have hfit := bytesFit_varint.1 h
  have hlo := usize_pos m
  have hhi := usize_le_maxVarint m
  rw [length_varintBytes]
  omega

/-- Where a batch that was written inside BUF ends; an empty one ends where it began. -/
theorem batch_end_range {s : State} {cnt off : Nat} (h : BytesFit s off (encubBytes cnt s)) (hc : cnt ≤ s.valsLen) :
    OffsetRange s (off + (encubBytes cnt s).length) (.encub cnt off) := by
  have hfit := (bytesFit_encub cnt off s).1 h
  rw [Nat.min_eq_left hc] at hfit
  rw [length_encubBytes, Nat.min_eq_left hc]
  cases cnt with
  | zero => rfl
  | succ k =>
    have hbounds := batchSize_bounds s.vals (k + 1)
    simp only [OffsetRange]
    omega

/-- Where the bytes of an encoder that completed end. -/
theorem stored_offsetRange {i : Instr} {s : State} {off : Nat} {bs : List Byte} (hb : encoderBytes i s = some (off, bs))
    (hfit : BytesFit s off bs) (hvals : ∀ cnt off, i = .encub cnt off → cnt ≤ s.valsLen) :
    OffsetRange s (off + bs.length) i := by
  cases i with
  | sizeu | sizes | decs => cases hb
  | encf32 w off => cases hb; exact ⟨rfl, hfit.resolve_left (List.cons_ne_nil _ _)⟩
  | encu v off => cases hb; exact varint_end_range hfit
  | encs v off => cases hb; exact varint_end_range hfit
  | encub cnt off => cases hb; exact batch_end_range hfit (hvals cnt off rfl)

theorem Ends.offsetRange {i : Instr} {s t : State} {o : Nat} (h : Ends s i t) (hr : t.response = some (.offset o)) :
    OffsetRange s o i := by
  cases h with
  | sizeu | sizes | storeFaulted | sourceFaulted | outside | overLong | runsOut | noRoom => cases hr
  | stored hb hfit hvals => cases hr; exact stored_offsetRange hb hfit hvals
  | loaded hv hin _ =>
    cases hr
    obtain ⟨hlo, (hhi : _ ≤ 10), -⟩ := hv
    exact ⟨by omega, by omega, hin⟩

/-- Settles O33, by the ends of a command: only an encoder that stored its bytes and a DECS that loaded answer an offset. -/
theorem offsetsMoveForwardInsideBuf : Obligations.OffsetsMoveForwardInsideBuf := fun _ _ _ _ h hr =>
  (ends_of_exec h).offsetRange hr

/-! The response record (rules R71, R120). -/

theorem Fault.code_ne_zero (f : Fault) : f.code ≠ 0#4 := by cases f <;> decide

theorem Response.isFault_iff_flt (r : Response) : r.isFault = true ↔ r.flt ≠ 0#4 := by
  cases r with
  | size | offset => simp [isFault, flt]
  | fault f x => simpa [isFault, flt] using f.code_ne_zero

/-- A SIZE of a varint fits the four bits of its field. -/
theorem toNat_size_field {n : Nat} (h : n ≤ 10) : (BitVec.ofNat 4 n).toNat = n := toNat_ofNat_of_lt (by omega)

/-- Settles O40: the fields of each kind of response are its definition's, and no fault has the code 0. -/
theorem responseRecordMatchesKind : Obligations.ResponseRecordMatchesKind :=
  ⟨fun _ => ⟨rfl, rfl, rfl, _, rfl, toNat_size_field⟩, fun _ => ⟨rfl, rfl, rfl, rfl⟩, fun _ _ => ⟨rfl, rfl, rfl, rfl⟩,
    rfl, rfl, rfl, rfl, rfl, Response.isFault_iff_flt⟩

end Sys2Proof.Machine
end

section
/-! The proofs about ENCF32: the four bytes of a Fixed32, where they stand in BUF, and that they read back as the word. -/

namespace Sys2Proof.Machine

/-- Settles O15: the bytes of a Fixed32 are its layout, and they are stored or run past the end of BUF. -/
theorem encf32PacksBigEndian : Obligations.Encf32PacksBigEndian := by
  refine ⟨fun _ => decode_encf32, fun w off s => ⟨fun hfit => ?_, fun hover => ?_⟩⟩
  · exact storesBytes_of_stored (execEncf32_fits (bytesFit_fixed.2 hfit)) (getElem_fixedBytes w)
  · have hnot : ¬ BytesFit s off (fixedBytes w) := fun h => absurd (bytesFit_fixed.1 h) (by omega)
    exact faultsStoring_of_storeFaulted (execEncf32_faults hnot) (getElem_fixedBytes w)

theorem read_stored_add {s : State} {off j : Nat} {bs : List Byte} (hj : j < bs.length) :
    (stored s off bs).buf.read (off + j) = bs[j] := by
  rw [read_stored, dif_pos (by omega)]
  simp only [Nat.add_sub_cancel_left]

/-- The bytes of a Fixed32 are neighbouring fields of the word, so that together they are the word (rule R81). -/
theorem append_fixedBytes (w : Fixed) :
    w.extractLsb' 24 8 ++ w.extractLsb' 16 8 ++ w.extractLsb' 8 8 ++ w.extractLsb' 0 8 = w := by
  rw [BitVec.extractLsb'_append_extractLsb'_eq_extractLsb' (by decide),
    BitVec.extractLsb'_append_extractLsb'_eq_extractLsb' (by decide),
    BitVec.extractLsb'_append_extractLsb'_eq_extractLsb' (by decide)]
  exact BitVec.extractLsb'_eq_self

/-- Settles O25: after the store the four bytes read are the four bytes of the word. -/
theorem encf32ReadsBackBigEndian : Obligations.Encf32ReadsBackBigEndian := by
  intro w off s t hfit h
  rw [execEncf32_fits (bytesFit_fixed.2 hfit), Host.Outcome.next.injEq] at h
  subst h
  have hread : ∀ (j : Nat) (hj : j < 4), (stored s off (fixedBytes w)).buf.read (off + j) = (fixedBytes w)[j]'hj :=
    fun _ hj => read_stored_add (bs := fixedBytes w) hj
  have hfirst : (stored s off (fixedBytes w)).buf.read off = w.extractLsb' 24 8 := hread 0 (by decide)
  rw [hfirst, hread 1 (by decide), hread 2 (by decide), hread 3 (by decide)]
  exact append_fixedBytes w

end Sys2Proof.Machine
end

section
/-! The proofs about the unsigned varint: the length unit, ENCU's bytes and their last one, the batch of ENCUB and the sequence of
ENCU commands it stands for, and that a command that fits does not fault. -/

namespace Sys2Proof.Machine

/-! The length unit by its thresholds (rule R85). -/

/-- The highest set bit stands in the last of the 7-bit groups. -/
theorem usize_eq_log2 {m : Value} (h : m.toNat ≠ 0) : usize m = (Nat.log2 m.toNat + 1 + 6) / 7 := by
  have hlow : 2 ^ Nat.log2 m.toNat ≤ m.toNat := Nat.log2_self_le h
  have hhigh : m.toNat < 2 ^ (Nat.log2 m.toNat + 1) := Nat.lt_log2_self
  refine usize_unique m _ (hhigh.trans_le (Nat.pow_le_pow_right (by omega) (by omega))) (.inr ⟨by omega, ?_⟩)
  exact (Nat.pow_le_pow_right (by omega) (by omega)).trans hlow

/-- Settles O21: between two thresholds only one size is left, and the highest set bit lies between two thresholds. -/
theorem usizeMatchesThresholds : Obligations.UsizeMatchesThresholds := by
  intro m
  refine ⟨usize_eq_one m, fun k hk _ hge hlt => usize_unique m k hlt (.inr ⟨by omega, hge⟩),
    fun h => (usize_eq_ten m).2 ((getLsbD_last_iff m).2 h), ?_⟩
  split
  next h => exact usize_eq_one m (by omega)
  next h => exact usize_eq_log2 h

theorem usize_two_pow {k : Nat} (hk : k ≤ 9) : usize (BitVec.ofNat 64 (2 ^ (7 * k))) = k + 1 := by
  have hnum : (BitVec.ofNat 64 (2 ^ (7 * k))).toNat = 2 ^ (7 * k) :=
    toNat_ofNat_of_lt (Nat.pow_lt_pow_right (by omega) (by omega))
  apply usize_unique <;> rw [hnum]
  · exact Nat.pow_lt_pow_right (by omega) (by omega)
  · exact .inr ⟨by omega, le_rfl⟩

theorem usize_two_pow_sub_one {k : Nat} (hpos : 1 ≤ k) (hk : k ≤ 9) : usize (BitVec.ofNat 64 (2 ^ (7 * k) - 1)) = k := by
  have hword : 2 ^ (7 * k) < 2 ^ 64 := Nat.pow_lt_pow_right (by omega) (by omega)
  have hstep : 2 ^ (7 * (k - 1)) < 2 ^ (7 * k) := Nat.pow_lt_pow_right (by omega) (by omega)
  have hnum : (BitVec.ofNat 64 (2 ^ (7 * k) - 1)).toNat = 2 ^ (7 * k) - 1 := toNat_ofNat_of_lt (by omega)
  apply usize_unique <;> rw [hnum]
  · exact Nat.sub_one_lt_of_lt hstep
  · exact .inr ⟨hpos, Nat.le_sub_one_of_lt hstep⟩

theorem sizeu_answersOnly (v : Value) (s : State) : AnswersOnly (.sizeu v) s (.size (usize v)) :=
  ⟨_, (Ends.sizeu v).exec_eq, answered_respond _ _, rfl, rfl, rfl⟩

/-- Settles O12: SIZEU answers the length unit, which is 10 exactly with bit 63 set and steps up at each 2^(7k). -/
theorem sizeuAnswers : Obligations.SizeuAnswers := by
  refine ⟨fun _ => decode_sizeu, fun v s => ⟨sizeu_answersOnly v s, fun hset => ?_, fun hclear => ?_⟩,
    usize_eq_one 0 (by decide), fun k hpos hk => ⟨usize_two_pow hk, usize_two_pow_sub_one hpos hk⟩⟩
  · rw [← (usize_eq_ten v).2 hset]
    exact sizeu_answersOnly v s
  · have hne : usize v ≠ 10 := fun h => by rw [usize_eq_ten, hclear] at h; exact nomatch h
    have hle := usize_le_maxVarint v
    exact ⟨usize_pos v, by omega⟩

/-! ENCU and the last byte of its varint (rules R88, R89). -/

/-- The last byte does not continue, and what is left of the value for it fits in 7 bits. -/
theorem varintLayout_last (m : Value) : varintLayout m (usize m - 1) = m.toNat / 2 ^ (7 * (usize m - 1)) := by
  have hpos := usize_pos m
  obtain ⟨hlt, -⟩ := usize_spec m
  rw [show 7 * usize m = 7 * (usize m - 1) + 7 by omega, pow_add] at hlt
  rw [varintLayout, if_neg (by omega), Nat.zero_add, Nat.mod_eq_of_lt (Nat.div_lt_of_lt_mul hlt)]

/-- Settles O16: the bytes of the varint are its layout, and they are stored or run past the end of BUF. -/
theorem encuWritesVarint : Obligations.EncuWritesVarint := by
  refine ⟨fun _ => decode_encu, fun v off s => ⟨fun hfit => ?_, fun hover => ?_,
    ⟨usize_pos v, usize_le_maxVarint v⟩, fun hset => ?_⟩⟩
  · have hstore := storesBytes_of_stored (execEncu_fits (bytesFit_varint.2 hfit)) (getElem_varintBytes v)
    rwa [length_varintBytes] at hstore
  · have hnot : ¬ BytesFit s off (varintBytes v) := fun h => absurd (bytesFit_varint.1 h) (by omega)
    exact faultsStoring_of_storeFaulted (execEncu_faults hnot) (getElem_varintBytes v)
  · have hten := (usize_eq_ten v).2 hset
    have hlast := varintLayout_last v
    have hge := (getLsbD_last_iff v).1 hset
    have hlt := v.isLt
    simp only [hten, Nat.reduceSub, Nat.reduceMul] at hlast
    exact ⟨hten, by omega⟩

section
variable {v : Value} {off o x : Nat} {s t : State} {f : Fault}

theorem execEncu_next_cases (h : exec (.encu v off) s = .next t) :
    (off + usize v ≤ s.bufLen ∧ t = stored s off (varintBytes v) ∧ t.response = some (.offset (off + usize v))) ∨
    (s.bufLen < off + usize v ∧ t.response = some (.fault .bufOutOfRange (firstOutside s off))) := by
  rcases execEncu_cases v off s with ⟨hfit, he, hr⟩ | ⟨hover, he, hr⟩ <;>
    obtain rfl := Host.Outcome.next.inj (h.symm.trans he)
  · exact .inl ⟨hfit, rfl, hr⟩
  · exact .inr ⟨hover, hr⟩

/-- What an ENCU that answered an offset did. -/
theorem eq_stored_of_execEncu (h : exec (.encu v off) s = .next t) (hr : t.response = some (.offset o)) :
    off + usize v ≤ s.bufLen ∧ o = off + usize v ∧ t = stored s off (varintBytes v) := by
  rcases execEncu_next_cases h with ⟨hfit, ht, hr'⟩ | ⟨-, hr'⟩ <;> cases hr.symm.trans hr'
  exact ⟨hfit, rfl, ht⟩

/-- What an ENCU that answered a fault met. -/
theorem eq_fault_of_execEncu (h : exec (.encu v off) s = .next t) (hr : t.response = some (.fault f x)) :
    s.bufLen < off + usize v ∧ f = .bufOutOfRange ∧ x = firstOutside s off := by
  rcases execEncu_next_cases h with ⟨-, -, hr'⟩ | ⟨hover, hr'⟩ <;> cases hr.symm.trans hr'
  exact ⟨hover, rfl, rfl⟩

end

theorem read_last_of_holdsVarint {buf : Memory 8} {off : Nat} {m : Value} (h : HoldsVarint buf off m) :
    (buf.read (off + (usize m - 1))).toNat = m.toNat / 2 ^ (7 * (usize m - 1)) := by
  have hpos := usize_pos m
  rw [h _ (by omega), varintLayout_last]

/-- Settles O26: the last byte is the value's top group, which is zero only in the one-byte form of zero. -/
theorem encuWritesShortestForm : Obligations.EncuWritesShortestForm := by
  intro v off o s t h hr
  obtain ⟨-, rfl, rfl⟩ := eq_stored_of_execEncu h hr
  have hholds : HoldsVarint (stored s off (varintBytes v)).buf off v := holdsVarint_writeAll s.buf off v
  have hlast := read_last_of_holdsVarint hholds
  obtain ⟨hlt, hge⟩ := usize_spec v
  refine ⟨?_, fun htwo hzero => ?_, fun hone => ?_⟩
  · rw [Nat.add_sub_cancel_left]
    exact hholds.varintAt
  · rw [← Nat.add_sub_assoc (usize_pos v), hzero] at hlast
    have htop := Nat.div_pos (hge.resolve_left (by omega)) (Nat.two_pow_pos _)
    rw [← hlast] at htop
    exact Nat.lt_irrefl 0 htop
  · have hsize : usize v = 1 := by omega
    simp only [hsize, Nat.sub_self, Nat.mul_zero, Nat.mul_one, Nat.add_zero, pow_zero, Nat.div_one] at hlast hlt
    refine ⟨BitVec.eq_of_toNat_eq ?_, hlt⟩
    rw [hlast, BitVec.toNat_setWidth, Nat.mod_eq_of_lt (by omega)]

/-! The batch (rules R90, R93). -/

theorem bytesFit_encub_of_le {cnt off : Nat} {s : State} (hc : cnt ≤ s.valsLen) :
    BytesFit s off (encubBytes cnt s) ↔ cnt = 0 ∨ off + batchSize s.vals cnt ≤ s.bufLen := by
  rw [bytesFit_encub, Nat.min_eq_left hc]

/-- Settles O17: the bytes of the batch are its layout; they are stored, or stored up to the end of VALS, or run past the end of
BUF. -/
theorem encubWritesBatch : Obligations.EncubWritesBatch := by
  intro cnt off s
  refine ⟨fun hc hfit => ?_, fun hc hfit => ?_, fun hpos hover => ?_⟩
  · have hstore := storesBytes_of_stored (execEncub_fits hc ((bytesFit_encub_of_le hc).2 hfit)) (getElem_batchLayout _ _)
    rwa [length_encubBytes, Nat.min_eq_left hc] at hstore
  · have hmin := Nat.min_eq_right hc.le
    have hbytes : BytesFit s off (encubBytes cnt s) := (bytesFit_encub cnt off s).2 (hmin.symm ▸ hfit)
    have hfault := faultsStoring_of_sourceFaulted (execEncub_source hc hbytes) (getElem_batchLayout _ _)
    rwa [length_encubBytes, hmin] at hfault
  · have hnot : ¬ BytesFit s off (encubBytes cnt s) := fun h => by have := (bytesFit_encub cnt off s).1 h; omega
    exact faultsStoring_of_storeFaulted (execEncub_faults hnot) (getElem_batchLayout _ _)

/-! The batch against the sequence of ENCU commands (rule R91). -/

/-- The varints of a list of values, one after another. -/
def sequenceBytes (vs : List Value) : List Byte := vs.flatMap varintBytes

theorem sequenceBytes_cons (v : Value) (vs : List Value) :
    sequenceBytes (v :: vs) = varintBytes v ++ sequenceBytes vs := List.flatMap_cons

theorem batchBytes_eq_sequenceBytes (vals : Memory 64) (k : Nat) :
    batchBytes vals 0 k = sequenceBytes (firstElements vals k) := by
  induction k with
  | zero => rfl
  | succ k ih => simp [batchBytes_snoc, ih, firstElements, sequenceBytes, List.range_succ]

/-- The bytes `bs` went to BUF from `off`, the response `r` and the state `t` at the end: an offset with all of them there, or
BufOutOfRange. -/
structure PutsBytes (s : State) (off : Nat) (bs : List Byte) (r : Response) (t : State) : Prop where
  fits : BytesFit s off bs → r = .offset (off + bs.length) ∧ t.buf = Memory.writeAll s.buf off bs
  faults : ¬ BytesFit s off bs → r = .fault .bufOutOfRange (firstOutside s off)

/-- The bytes, the place and the state at the start settle the response and, without a fault, BUF. -/
theorem PutsBytes.agree {s t t' : State} {off : Nat} {bs : List Byte} {r r' : Response} (h : PutsBytes s off bs r t)
    (h' : PutsBytes s off bs r' t') : r' = r ∧ (r.isFault = false → t'.buf = t.buf) ∧
      (r.isFault = true → r = .fault .bufOutOfRange (firstOutside s off)) := by
  by_cases hfit : BytesFit s off bs
  · obtain ⟨rfl, hbuf⟩ := h.fits hfit
    obtain ⟨rfl, hbuf'⟩ := h'.fits hfit
    exact ⟨rfl, fun _ => hbuf'.trans hbuf.symm, (nomatch ·)⟩
  · obtain rfl := h.faults hfit
    obtain rfl := h'.faults hfit
    exact ⟨rfl, (nomatch ·), fun _ => rfl⟩

theorem bytesFit_varint_append {s : State} {off : Nat} {v : Value} {bs : List Byte} :
    BytesFit s off (varintBytes v ++ bs) ↔ off + usize v ≤ s.bufLen ∧ BytesFit s (off + usize v) bs := by
  simp only [BytesFit, List.append_eq_nil_iff, varintBytes_ne_nil, false_and, false_or, List.length_append,
    length_varintBytes]
  constructor
  · exact fun h => ⟨by omega, .inr (by omega)⟩
  · rintro ⟨hv, rfl | h⟩
    · exact hv
    · omega

/-- After bytes that fit, the first index outside BUF is still the same. -/
theorem firstOutside_add {s : State} {off n : Nat} (hn : 1 ≤ n) (h : off + n ≤ s.bufLen) :
    firstOutside s (off + n) = firstOutside s off := by
  unfold firstOutside
  split <;> split <;> omega

theorem EncuSequence.putsBytes {vs : List Value} {off : Nat} {s u : State} {r : Response} (h : EncuSequence vs off s r u) :
    PutsBytes s off (sequenceBytes vs) r u := by
  induction h with
  | done off s => exact ⟨fun _ => ⟨rfl, rfl⟩, fun hnot => absurd (.inl rfl) hnot⟩
  | more he hr _ ih =>
    obtain ⟨hfit, rfl, rfl⟩ := eq_stored_of_execEncu he hr
    rw [sequenceBytes_cons]
    refine ⟨fun hall => ?_, fun hnot => ?_⟩
    · obtain ⟨hresp, hbuf⟩ := ih.fits (bytesFit_varint_append.1 hall).2
      rw [List.length_append, Memory.writeAll_append, length_varintBytes, ← Nat.add_assoc]
      exact ⟨hresp, hbuf⟩
    · rw [← firstOutside_add (usize_pos _) hfit]
      exact ih.faults fun hrest => hnot (bytesFit_varint_append.2 ⟨hfit, hrest⟩)
  | fault he hr =>
    obtain ⟨hover, rfl, rfl⟩ := eq_fault_of_execEncu he hr
    rw [sequenceBytes_cons]
    refine ⟨fun hall => ?_, fun _ => rfl⟩
    have := (bytesFit_varint_append.1 hall).1
    omega

theorem encuSequence_exists (vs : List Value) (off : Nat) (s : State) : ∃ r u, EncuSequence vs off s r u := by
  induction vs generalizing off s with
  | nil => exact ⟨_, _, .done off s⟩
  | cons v vs ih =>
    rcases execEncu_cases v off s with ⟨-, he, hr⟩ | ⟨-, he, hr⟩
    · obtain ⟨r, u, hrest⟩ := ih (off + usize v) (stored s off (varintBytes v))
      exact ⟨r, u, .more he hr hrest⟩
    · exact ⟨_, _, .fault he hr⟩

theorem execEncub_putsBytes {cnt off : Nat} {s : State} (hc : cnt ≤ s.valsLen) :
    ∃ t r, exec (.encub cnt off) s = .next t ∧ t.response = some r ∧ PutsBytes s off (encubBytes cnt s) r t := by
  by_cases hfit : BytesFit s off (encubBytes cnt s)
  · exact ⟨_, _, execEncub_fits hc hfit, stored_response _ _ _, fun _ => ⟨rfl, rfl⟩, absurd hfit⟩
  · exact ⟨_, _, execEncub_faults hfit, (answered_storeFaulted _ _ _).response, (absurd · hfit), fun _ => rfl⟩

/-- Settles O28: the batch and every end of the sequence put the same bytes at the same place, and some end is reached. -/
theorem batchEqualsSequence : Obligations.BatchEqualsSequence := by
  intro cnt off s hc
  obtain ⟨t, r, ht, hr, hbatch⟩ := execEncub_putsBytes (off := off) hc
  rw [encubBytes, Nat.min_eq_left hc, batchBytes_eq_sequenceBytes] at hbatch
  obtain ⟨r', u, hu⟩ := encuSequence_exists (firstElements s.vals cnt) off s
  obtain ⟨rfl, -⟩ := hbatch.agree hu.putsBytes
  refine ⟨t, r', ht, hr, ⟨u, hu⟩, fun r'' u' hu' => ?_⟩
  obtain ⟨hresp, hbuf, hfault⟩ := hbatch.agree hu'.putsBytes
  exact ⟨hresp, fun hf a => by rw [hbuf hf], hfault⟩

/-! What fits does not fault (rules R94, R144, R149). -/

theorem Fits.answers {i : Instr} {s : State} (h : Fits i s) :
    ∃ t r, exec i s = .next t ∧ Answered r s t ∧ r.isFault = false := by
  cases i with
  | sizeu v => exact ⟨_, _, (Ends.sizeu v).exec_eq, answered_respond _ _, rfl⟩
  | sizes v => exact ⟨_, _, (Ends.sizes v).exec_eq, answered_respond _ _, rfl⟩
  | encf32 w off => exact ⟨_, _, execEncf32_fits (bytesFit_fixed.2 h), answered_stored _ _ _, rfl⟩
  | encu v off => exact ⟨_, _, execEncu_fits (bytesFit_varint.2 h), answered_stored _ _ _, rfl⟩
  | encs v off => exact ⟨_, _, execEncs_fits (bytesFit_varint.2 h), answered_stored _ _ _, rfl⟩
  | encub cnt off =>
    obtain ⟨hc, hfit⟩ := h
    exact ⟨_, _, execEncub_fits hc ((bytesFit_encub_of_le hc).2 (.inr hfit)), answered_stored _ _ _, rfl⟩
  | decs off didx =>
    obtain ⟨⟨n, hv, hin⟩, hd⟩ := h
    exact ⟨_, _, execDecs_loads hv hin hd, answered_loaded _ _ _ _, rfl⟩

/-- Settles O32, command by command: its capacity condition is what its end without a fault asks for. -/
theorem fitsNeverFaults : Obligations.FitsNeverFaults := fun _ _ h => by
  obtain ⟨t, r, ht, hans, hr⟩ := h.answers
  exact ⟨t, r, ht, hans.response, hr, hans⟩

end Sys2Proof.Machine
end

section
/-! The proofs about the zigzag mapper and the two commands behind it: the mapping bit by bit and in numbers, the sizes it gives by
signed range, ENCS and SIZES as ENCU and SIZEU of the mapped value, and the signed round trip. -/

namespace Sys2Proof.Machine

/-! The mapping (rule R100). -/

theorem getLsbD_zigzag_zero (v : Value) : (zigzag v).getLsbD 0 = v.getLsbD 63 := by
  rw [getLsbD_zigzag v 0 (by decide)]
  simp

theorem getLsbD_zigzag_of_pos (v : Value) {i : Nat} (hpos : 1 ≤ i) (hi : i ≤ 63) :
    (zigzag v).getLsbD i = (v.getLsbD (i - 1) ^^ v.getLsbD 63) := by
  rw [getLsbD_zigzag v i (by omega), decide_eq_false (by omega), Bool.not_false, Bool.true_and, Bool.xor_comm]

/-- Settles O22: bit 0 holds the sign, every other bit the one below it under the sign, and the number interleaves the signs. -/
theorem zigzagBitsAndNumbers : Obligations.ZigzagBitsAndNumbers := fun v =>
  ⟨rfl, getLsbD_zigzag_zero v, fun _ => getLsbD_zigzag_of_pos v, fun hnonneg => by rw [zigzag_toNat, if_pos hnonneg],
    fun hneg => by rw [zigzag_toNat, if_neg hneg.not_ge]⟩

/-- The mapped value fits in `k + 1` bits exactly when the value fits in as many as a signed number. -/
theorem zigzag_lt_two_pow_iff (v : Value) (k : Nat) :
    (zigzag v).toNat < 2 ^ (k + 1) ↔ -(2 : Int) ^ k ≤ v.toInt ∧ v.toInt < 2 ^ k := by
  have hnum := zigzag_toNat v
  rw [← Int.ofNat_lt, Nat.cast_pow, Nat.cast_ofNat, pow_succ]
  split at hnum <;> omega

/-! SIZES (rules R102, R105). -/

theorem sizes_answersOnly (v : Value) (s : State) : AnswersOnly (.sizes v) s (.size (usize (zigzag v))) :=
  ⟨_, (Ends.sizes v).exec_eq, answered_respond _ _, rfl, rfl, rfl⟩

/-- A varint of `n` bytes holds the mapped values below 2^(7n) (rule R105). -/
theorem usize_zigzag_le_iff (v : Value) {n : Nat} (hpos : 1 ≤ n) (hn : n ≤ 9) :
    usize (zigzag v) ≤ n ↔ -(2 : Int) ^ (7 * n - 1) ≤ v.toInt ∧ v.toInt < 2 ^ (7 * n - 1) := by
  rw [usize_le_iff _ n hpos hn, ← zigzag_lt_two_pow_iff, Nat.sub_add_cancel (by omega)]

/-- Settles O14: ten bytes are what nine do not hold. -/
theorem sizesAnswers : Obligations.SizesAnswers := by
  refine ⟨fun _ => decode_sizes, fun v s =>
    ⟨sizes_answersOnly v s, ⟨usize_pos _, usize_le_maxVarint _⟩, usize_eq_ten _, ?_⟩⟩
  have hnine := usize_zigzag_le_iff v (n := 9) (by decide) le_rfl
  have hmax := usize_le_maxVarint (zigzag v)
  omega

/-- Settles O24: the size is that of the mapped value, whose bound is the signed range. -/
theorem signedSizeRanges : Obligations.SignedSizeRanges := fun v s =>
  ⟨_, sizes_answersOnly v s, usize_pos _, usize_le_maxVarint _, fun n hpos hn => by
    rw [usize_zigzag_le_iff v hpos hn, Int.le_sub_one_iff]⟩

/-! ENCS as ENCU of the mapped value (rules R103, R104). -/

/-- The two write the same bytes, so they store them, or fault, alike. -/
theorem exec_encs_eq_encu (v : Value) (off : Nat) (s : State) : exec (.encs v off) s = exec (.encu (zigzag v) off) s := by
  by_cases hfit : BytesFit s off (varintBytes (zigzag v))
  · rw [execEncs_fits hfit, execEncu_fits hfit]
  · rw [execEncs_faults hfit, execEncu_faults hfit]

theorem exec_sizes_eq_sizeu (v : Value) (s : State) : exec (.sizes v) s = exec (.sizeu (zigzag v)) s := by
  rw [(Ends.sizes v).exec_eq, (Ends.sizeu (zigzag v)).exec_eq]

/-- Settles O27: behind the mapper stand the units of ENCU and SIZEU. -/
theorem encsIsEncuOfMapped : Obligations.EncsIsEncuOfMapped := fun v off s =>
  ⟨exec_encs_eq_encu v off s, exec_sizes_eq_sizeu v s⟩

/-- Settles O18: ENCU of the mapped value writes its varint or faults. -/
theorem encsWritesMappedVarint : Obligations.EncsWritesMappedVarint := by
  refine ⟨fun _ => decode_encs, fun v off s => ?_⟩
  obtain ⟨-, hencu⟩ := encuWritesVarint
  obtain ⟨hstores, hfaults, -⟩ := hencu (zigzag v) off s
  rw [StoresBytes, FaultsStoring, exec_encs_eq_encu]
  exact ⟨hstores, hfaults⟩

/-! What ENCU or ENCS wrote, read by DECS (rules R104, R116). -/

theorem HoldsVarint.of_read_eq {buf buf' : Memory 8} {off : Nat} {m : Value} (h : HoldsVarint buf off m)
    (hread : ∀ a, off ≤ a → a < off + usize m → buf'.read a = buf.read a) : HoldsVarint buf' off m := fun j hj => by
  rw [hread _ (by omega) (by omega), h j hj]

/-- DECS of a varint of `m` stores `unzigzag m`. -/
theorem HoldsVarint.exec_decs {s : State} {off didx : Nat} {m : Value} (h : HoldsVarint s.buf off m)
    (hin : off + usize m ≤ s.bufLen) (hd : didx < s.dstLen) :
    ∃ r, exec (.decs off didx) s = .next r ∧ r.response = some (.offset (off + usize m)) ∧ r.dst.read didx = unzigzag m := by
  refine ⟨_, execDecs_loads h.varintAt hin hd, (answered_loaded _ _ _ _).response, ?_⟩
  rw [loaded, respond_dst, Memory.read_write_same, h.accBits_eq]

/-- DECS, in any state that holds what a successful ENCU of `m` wrote, ends where ENCU did and stores `unzigzag m`. -/
theorem exec_decs_of_encu {m : Value} {off e didx : Nat} {s t u : State} (h : exec (.encu m off) s = .next t)
    (hr : t.response = some (.offset e)) (hread : ∀ a, off ≤ a → a < e → u.buf.read a = t.buf.read a)
    (hin : e ≤ u.bufLen) (hd : didx < u.dstLen) :
    ∃ r, exec (.decs off didx) u = .next r ∧ r.response = some (.offset e) ∧ r.dst.read didx = unzigzag m := by
  obtain ⟨-, rfl, rfl⟩ := eq_stored_of_execEncu h hr
  have hholds : HoldsVarint (stored s off (varintBytes m)).buf off m := holdsVarint_writeAll s.buf off m
  exact (hholds.of_read_eq hread).exec_decs hin hd

/-- Settles O29: DECS of ENCU's output for the mapped value, and the inverse mapping undoes the mapping. -/
theorem signedRoundTrip : Obligations.SignedRoundTrip := by
  intro v off e didx s t u h hr hread hin hd
  rw [exec_encs_eq_encu] at h
  have hdecs := exec_decs_of_encu h hr hread hin hd
  rwa [unzigzag_zigzag] at hdecs

end Sys2Proof.Machine
end

section
/-! The proofs about the varint decoder: the inverse zigzag mapper, what DECS stores and how it faults, DECS of ENCU's output, and the
tenth byte. -/

namespace Sys2Proof.Machine

/-! The inverse mapping (rule R110). -/

theorem getLsbD_unzigzag_last (m : Value) : (unzigzag m).getLsbD 63 = m.getLsbD 0 := by
  have hpast : m.getLsbD (1 + 63) = false := BitVec.getLsbD_of_ge _ _ (by omega)
  rw [getLsbD_unzigzag m 63 (by omega), hpast, Bool.false_xor]

theorem getLsbD_unzigzag_of_le (m : Value) {i : Nat} (hi : i ≤ 62) :
    (unzigzag m).getLsbD i = (m.getLsbD (i + 1) ^^ m.getLsbD 0) := by
  rw [getLsbD_unzigzag m i (by omega), Nat.add_comm]

/-- The mapping in numbers, read backwards. -/
theorem toNat_eq_of_unzigzag (m : Value) :
    (m.toNat : Int) = if 0 ≤ (unzigzag m).toInt then 2 * (unzigzag m).toInt else -2 * (unzigzag m).toInt - 1 := by
  rw [← zigzag_toNat, zigzag_unzigzag]

theorem toInt_unzigzag_of_even {m : Value} (h : m.toNat % 2 = 0) : (unzigzag m).toInt = (m.toNat : Int) / 2 := by
  have hnum := toNat_eq_of_unzigzag m
  split at hnum <;> omega

theorem toInt_unzigzag_of_odd {m : Value} (h : m.toNat % 2 = 1) : (unzigzag m).toInt = -(((m.toNat : Int) + 1) / 2) := by
  have hnum := toNat_eq_of_unzigzag m
  split at hnum <;> omega

/-- Settles O23: the sign comes from bit 0, and the numbers are those of the mapping, which the inverse mapping undoes. -/
theorem unzigzagInvertsZigzag : Obligations.UnzigzagInvertsZigzag := fun m =>
  ⟨rfl, getLsbD_unzigzag_last m, fun _ => getLsbD_unzigzag_of_le m, toInt_unzigzag_of_even, toInt_unzigzag_of_odd,
    unzigzag_zigzag m, zigzag_unzigzag m⟩

/-! DECS (rules R112, R113, R128). -/

theorem accBits_eq_ofNat_payloadNat (buf : Memory 8) (off : Nat) {n : Nat} (hn : n ≤ 10) :
    accBits buf off n = BitVec.ofNat 64 (payloadNat buf off n) := by
  apply BitVec.eq_of_toNat_eq
  rw [accBits_toNat buf off n hn, BitVec.toNat_ofNat]

theorem read_loaded_same (s : State) (off didx n : Nat) :
    (loaded s off didx n).dst.read didx = unzigzag (accBits s.buf off n) := Memory.read_write_same _ _ _

theorem read_loaded_other (s : State) (off n : Nat) {didx a : Nat} (h : a ≠ didx) :
    (loaded s off didx n).dst.read a = s.dst.read a := Memory.read_write_other _ _ h

/-- Settles O19: DECS loads, and its accumulator is the payload's low 64 bits. -/
theorem decsReadsVarint : Obligations.DecsReadsVarint := by
  intro off didx n s hv hin hd
  have hten : n ≤ 10 := hv.2.1
  refine ⟨_, execDecs_loads hv hin hd, answered_loaded s off didx n, rfl, rfl, ?_, fun a => read_loaded_other s off n⟩
  rw [read_loaded_same, accBits_eq_ofNat_payloadNat _ _ hten]

theorem answersOnly_of_exec_eq_respond {i : Instr} {s : State} {r : Response} (h : exec i s = .next (respond r s)) :
    AnswersOnly i s r := ⟨_, h, answered_respond r s, rfl, rfl, rfl⟩

/-- Settles O20: each of the four faults is a response and nothing else. -/
theorem decsFaultsChangeNothing : Obligations.DecsFaultsChangeNothing := fun _ _ _ =>
  ⟨fun hout => answersOnly_of_exec_eq_respond (execDecs_outside hout),
    fun hover => answersOnly_of_exec_eq_respond (execDecs_overLong hover),
    fun hends => answersOnly_of_exec_eq_respond (execDecs_runsOut hends),
    fun _ hv hin hroom => answersOnly_of_exec_eq_respond (execDecs_noRoom hv hin hroom)⟩

/-- Settles O30: what ENCU wrote is the varint of the number, which DECS reads back and maps. -/
theorem decsOfUnsignedOutput : Obligations.DecsOfUnsignedOutput := fun _ _ _ _ _ _ _ => exec_decs_of_encu

/-! The tenth byte (rule R114): of its group the shift to bit 63 leaves bit 0. -/

theorem getLsbD_payload_zero (b : Byte) : (payload b).getLsbD 0 = b.getLsbD 0 := by
  simp [payload]

theorem payload_shiftLeft_63_congr {b b' : Byte} (h : b'.getLsbD 0 = b.getLsbD 0) : payload b' <<< 63 = payload b <<< 63 := by
  apply BitVec.eq_of_getLsbD_eq
  intro i hi
  rw [BitVec.getLsbD_shiftLeft, BitVec.getLsbD_shiftLeft]
  by_cases hlow : i < 63
  · rw [decide_eq_true hlow, Bool.not_true, Bool.and_false, Bool.false_and, Bool.false_and]
  · obtain rfl : i = 63 := by omega
    rw [Nat.sub_self, getLsbD_payload_zero, getLsbD_payload_zero, h]

theorem accBits_ten (buf : Memory 8) (off : Nat) :
    accBits buf off 10 = accBits buf off 9 ||| (payload (buf.read (off + 9)) <<< 63) := rfl

theorem accBits_ten_congr {buf buf' : Memory 8} {off : Nat} (hnine : ∀ j < 9, buf'.read (off + j) = buf.read (off + j))
    (hbit : (buf'.read (off + 9)).getLsbD 0 = (buf.read (off + 9)).getLsbD 0) : accBits buf' off 10 = accBits buf off 10 := by
  rw [accBits_ten, accBits_ten, accBits_congr hnine, payload_shiftLeft_63_congr hbit]

/-- Settles O31: both load, and the two accumulators are one. -/
theorem tenthByteKeepsOneBit : Obligations.TenthByteKeepsOneBit := by
  intro off didx s s' hv hv' hin hin' hd hd' hnine hbit
  refine ⟨_, _, execDecs_loads hv hin hd, execDecs_loads hv' hin' hd', rfl, rfl, ?_⟩
  rw [read_loaded_same, read_loaded_same, accBits_ten_congr hnine hbit]

end Sys2Proof.Machine
end

section
/-! The proofs about the exceptions: what each fault reports, the illegal command, what can be refused, and the record of responses. -/

namespace Sys2Proof.Machine

/-! What a fault of a command reports (rules R120 to R123, R126). -/

theorem bufOperand_of_encoderBytes {i : Instr} {s : State} {off : Nat} {bs : List Byte} (h : encoderBytes i s = some (off, bs)) :
    bufOperand i = some off := by
  cases i <;> cases h <;> rfl

theorem firstOutside_of_le {s : State} {off : Nat} (h : s.bufLen ≤ off) : firstOutside s off = off := if_pos h

theorem firstOutside_of_lt {s : State} {off : Nat} (h : off < s.bufLen) : firstOutside s off = s.bufLen := if_neg (by omega)

theorem Ends.faultMet {i : Instr} {s t : State} {f : Fault} {x : Nat} (h : Ends s i t) (hr : t.response = some (.fault f x)) :
    FaultMet i s x f := by
  cases h with
  | sizeu | sizes | stored | loaded => cases hr
  | @storeFaulted _ off bs hb =>
    rw [(answered_storeFaulted s off bs).response] at hr
    cases hr
    exact ⟨off, bufOperand_of_encoderBytes hb, rfl⟩
  | sourceFaulted hsrc => cases hr; exact ⟨_, _, rfl, hsrc, rfl⟩
  | outside hout => cases hr; exact ⟨_, rfl, (firstOutside_of_le hout).symm⟩
  | overLong hover => cases hr; exact ⟨_, _, rfl, hover, rfl⟩
  | runsOut hends => cases hr; exact ⟨_, rfl, (firstOutside_of_lt hends.1).symm⟩
  | noRoom hv hin hroom => cases hr; exact ⟨_, _, rfl, hroom, rfl, _, hv, hin⟩

/-- Settles O34, by the ends of a command: each end with a fault carries the condition under which it is met. -/
theorem faultsReportWhatTheyMet : Obligations.FaultsReportWhatTheyMet := fun _ _ _ _ _ h hr => (ends_of_exec h).faultMet hr

/-! The illegal command (rule R125). -/

theorem runCommand_of_decode_error {c : Cmd} {e : DecodeError} {s : State} (h : decode c = .error e) :
    runCommand c s = .next (illegalCommand s) := by
  rw [runCommand, h]

theorem answered_illegalCommand (s : State) : Answered (.fault .illegalCommand 0) s (illegalCommand s) :=
  ⟨rfl, rfl, rfl, rfl, rfl, rfl, rfl, rfl, rfl, rfl⟩

/-- Settles O8: the decoder rejects the OP, and taking the fault settles no location and draws nothing. -/
theorem illegalCommandFaults : Obligations.IllegalCommandFaults := by
  intro s c hc hr hop
  exact ⟨illegalCommand s, by rw [step_command hc hr, runCommand_of_decode_error (decode_illegal hop)],
    answered_illegalCommand s, rfl, rfl, rfl⟩

/-! What a step can do, by whose turn it is (rules R51, R140, R141). -/

/-- A step answers the command in flight, or lands the reset that comes first, or is the turn of an idle block's host. -/
theorem step_cases (s : State) :
    (s.cmd ≠ none ∧ ∃ t r, step s = .next t ∧ Answered r s t) ∨
      (∃ rest, s.host = .reset :: rest ∧ step s = .next (acceptReset { s with host := rest })) ∨
      s.cmd = none ∧ step s = hostTurn s := by
  rcases Option.eq_none_or_eq_some s.cmd with hc | ⟨c, hc⟩
  · exact .inr (.inr ⟨hc, step_idle hc⟩)
  · cases hr : resetPending s with
    | true =>
      obtain ⟨rest, hhost⟩ := resetPending_iff.1 hr
      exact .inr (.inl ⟨rest, hhost, step_reset hhost⟩)
    | false =>
      rw [step_command hc hr]
      exact .inl ⟨by simp [hc], runCommand_answers c s⟩

/-- The host has no move, or it makes its next one. -/
theorem hostTurn_cases (s : State) :
    hostTurn s = .next s ∨ ∃ mv rest, s.host = mv :: rest ∧ hostTurn s = hostMove mv { s with host := rest } := by
  unfold hostTurn
  cases hhost : s.host with
  | nil => exact .inl rfl
  | cons mv rest => exact .inr ⟨mv, rest, rfl, rfl⟩

/-! What can be refused (rules R6, R66, R129; log 14). -/

/-- The reasons for which a host move is refused. -/
def Refusal.OfHostMove (r : Refusal) : Prop :=
  r = .hostIndexOutsideContainer ∨ r = .capacityOutsideIndexSpace ∨ r = .commandOutsideFields

theorem ofHostMove_of_attachCheck {w offW len : Nat} {cs : List (Nat × BitVec w)} {r : Refusal}
    (h : attachCheck offW len cs = some r) : r.OfHostMove := by
  unfold attachCheck at h
  split_ifs at h <;> cases h
  · exact .inr (.inl rfl)
  · exact .inl rfl

theorem ofHostMove_of_hostMove {mv : HostMove} {s : State} {r : Refusal} (h : hostMove mv s = .refused r) : r.OfHostMove := by
  cases mv <;> simp only [hostMove] at h
  case issue => split at h <;> cases h; exact .inr (.inr rfl)
  case readResponse | reset => cases h
  case writeBuf | writeVals | writeDst => split at h <;> cases h; exact .inl rfl
  case attachBuf | attachVals | attachDst => split at h <;> cases h; next hcheck => exact ofHostMove_of_attachCheck hcheck

theorem step_not_fault (s : State) (f : Fault) : step s ≠ .fault f := by
  rcases step_cases s with ⟨-, t, r, hstep, -⟩ | ⟨rest, -, hstep⟩ | ⟨-, hstep⟩
  · simp [hstep]
  · simp [hstep]
  · rw [hstep]
    rcases hostTurn_cases s with hturn | ⟨mv, rest, -, hturn⟩
    · simp [hturn]
    · rw [hturn]
      exact hostMove_not_fault mv _ f

theorem step_refused {s : State} {r : Refusal} (h : step s = .refused r) : s.cmd = none ∧ s.host ≠ [] ∧ r.OfHostMove := by
  rcases step_cases s with ⟨-, t, r', hstep, -⟩ | ⟨rest, -, hstep⟩ | ⟨hidle, hstep⟩
  · simp [hstep] at h
  · simp [hstep] at h
  · rcases hostTurn_cases s with hturn | ⟨mv, rest, hhost, hturn⟩ <;> rw [hstep, hturn] at h
    · cases h
    · exact ⟨hidle, by simp [hhost], ofHostMove_of_hostMove h⟩

/-- Settles O11: every command has an end, so a step that gives no next state is a host move, and those are only ever refused. -/
theorem onlyHostMovesAreRefused : Obligations.OnlyHostMovesAreRefused := by
  refine ⟨fun i s => ?_, step_not_fault, fun _ _ => step_refused⟩
  obtain ⟨t, ht, -⟩ := exec_ends i s
  exact ⟨t, ht⟩

/-! The record of responses (rules R129, R143). -/

theorem acceptReset_received (s : State) : (acceptReset s).received = s.received := by
  obtain ⟨-, -, -, -, -, -, hreceived⟩ := acceptReset_frame s
  exact hreceived

theorem hostMove_received {mv : HostMove} {s t : State} (h : hostMove mv s = .next t) : t.received = s.received := by
  cases mv <;> simp only [hostMove] at h
  case reset => cases h; exact acceptReset_received s
  case readResponse => cases h; rfl
  all_goals split at h <;> cases h; rfl

theorem hostTurn_received {s t : State} (h : hostTurn s = .next t) : t.received = s.received := by
  rcases hostTurn_cases s with hturn | ⟨mv, rest, -, hturn⟩ <;> rw [hturn] at h
  · cases h; rfl
  · have hmove := hostMove_received h
    exact hmove

/-- Only a command that answers adds to the record, and it adds at the end. -/
theorem received_prefix_of_step {s t : State} (h : step s = .next t) : s.received <+: t.received := by
  rcases step_cases s with ⟨-, t', r, hstep, ha⟩ | ⟨rest, -, hstep⟩ | ⟨-, hstep⟩ <;> rw [hstep] at h
  · cases h
    rw [ha.received]
    exact List.prefix_append _ _
  · cases h
    rw [acceptReset_received]
  · rw [hostTurn_received h]

theorem faultRecorded_of_prefix {s t : State} (h : s.received <+: t.received) (hs : s.faultRecorded = true) :
    t.faultRecorded = true := by
  obtain ⟨r, hr, hf⟩ := List.any_eq_true.1 hs
  exact List.any_eq_true.2 ⟨r, h.subset hr, hf⟩

/-- Settles O44: the record after the step extends the one before, so it holds every fault that one held. -/
theorem faultRecordIsKept : Obligations.FaultRecordIsKept := fun _ _ h =>
  ⟨received_prefix_of_step h, faultRecorded_of_prefix (received_prefix_of_step h)⟩

end Sys2Proof.Machine
end

section
/-! The proofs about SIZEU under VALUE_NONNEG, and about what an idle block does on its host's turn: one rule for each move that is not
refused. -/

namespace Sys2Proof.Machine

/-! SIZEU and decision D22 (rules R87, R148, U1). -/

/-- U1's parameter counts for patterns with bit 63 set only. -/
theorem sizeuCountWith_of_clear (neg : Value → Nat) {v : Value} (h : v.getLsbD 63 = false) : sizeuCountWith neg v = usize v :=
  if_neg (by rw [BitVec.msb_eq_getLsbD_last, h]; exact Bool.false_ne_true)

theorem toNat_lt_of_clear {v : Value} (h : v.getLsbD 63 = false) : v.toNat < 2 ^ 63 := by
  rw [← Nat.not_le, ← getLsbD_last_iff, h]
  exact Bool.false_ne_true

/-- Settles O13: with bit 63 clear the count never asks the parameter, so the answer is the length unit, as SIZEU always answers. -/
theorem sizeuUnderValueNonneg : Obligations.SizeuUnderValueNonneg := by
  intro v s hclear neg
  obtain ⟨-, hsizeu, -⟩ := sizeuAnswers
  obtain ⟨hans, -, hrange⟩ := hsizeu v s
  obtain ⟨hlo, hhi⟩ := hrange hclear
  have hlt := toNat_lt_of_clear hclear
  have hcount := sizeuCountWith_of_clear neg hclear
  refine ⟨hcount ▸ hans, hcount, hlo, hhi, hlt, ?_⟩
  rw [BitVec.toInt_eq_toNat_of_lt (by omega)]
  exact Int.natCast_nonneg _

/-! The turn of an idle block's host (rules R141, R146, R150). -/

theorem step_idle_of_no_move {s : State} (hc : s.cmd = none) (hhost : s.host = []) : step s = .next s := by
  rw [step_idle hc, hostTurn, hhost]

theorem step_idle_of_move {s : State} {mv : HostMove} {rest : List HostMove} (hc : s.cmd = none) (hhost : s.host = mv :: rest) :
    step s = hostMove mv { s with host := rest } := by
  rw [step_idle hc, hostTurn, hhost]

section
variable {s : State} {i len : Nat}

theorem hostMove_issue {c : Cmd} (h : c.fits s.offW = true) : hostMove (.issue c) s = .next (issueCommand c s) := if_pos h

theorem hostMove_writeBuf (b : Byte) (h : i < s.bufLen) :
    hostMove (.writeBuf i b) s = .next { s with buf := s.buf.write i b } := if_pos h

theorem hostMove_writeVals (v : Value) (h : i < s.valsLen) :
    hostMove (.writeVals i v) s = .next { s with vals := s.vals.write i v } := if_pos h

theorem hostMove_writeDst (v : Value) (h : i < s.dstLen) :
    hostMove (.writeDst i v) s = .next { s with dst := s.dst.write i v } := if_pos h

theorem hostMove_attachBuf {cs : List (Nat × Byte)} (h : attachCheck s.offW len cs = none) :
    hostMove (.attachBuf len cs) s = .next { s with bufLen := len, buf := Memory.ofContents cs } := by
  rw [hostMove, h]

theorem hostMove_attachVals {cs : List (Nat × Value)} (h : attachCheck s.offW len cs = none) :
    hostMove (.attachVals len cs) s = .next { s with valsLen := len, vals := Memory.ofContents cs } := by
  rw [hostMove, h]

theorem hostMove_attachDst {cs : List (Nat × Value)} (h : attachCheck s.offW len cs = none) :
    hostMove (.attachDst len cs) s = .next { s with dstLen := len, dst := Memory.ofContents cs } := by
  rw [hostMove, h]

end

/-- Settles O9: the step of an idle block is its host's turn, which is empty without a move and fills the command slot at an issue. -/
theorem idleBlockWaitsForTheHost : Obligations.IdleBlockWaitsForTheHost :=
  ⟨fun _ => step_idle_of_no_move, fun _ _ _ hc hhost hfits => (step_idle_of_move hc hhost).trans (hostMove_issue hfits)⟩

/-- Settles O41: each move's rule gives the state it leaves, and the memory in it reads as the write or the contents list says. -/
theorem hostMovesReachTheMemories : Obligations.HostMovesReachTheMemories := by
  intro s rest hc
  have hturn {mv : HostMove} (hhost : s.host = mv :: rest) := step_idle_of_move hc hhost
  refine ⟨fun i b hhost hi => ?writeBuf, fun i v hhost hi => ?writeVals, fun i v hhost hi => ?writeDst,
    fun len cs hhost hlen hcs => ?attachBuf, fun len cs hhost hlen hcs => ?attachVals, fun len cs hhost hlen hcs => ?attachDst,
    fun hhost => hturn hhost⟩
  case writeBuf =>
    exact ⟨_, (hturn hhost).trans (hostMove_writeBuf b hi), Memory.read_write_same _ _ _, fun _ => Memory.read_write_other _ _⟩
  case writeVals =>
    exact ⟨_, (hturn hhost).trans (hostMove_writeVals v hi), Memory.read_write_same _ _ _, fun _ => Memory.read_write_other _ _⟩
  case writeDst =>
    exact ⟨_, (hturn hhost).trans (hostMove_writeDst v hi), Memory.read_write_same _ _ _, fun _ => Memory.read_write_other _ _⟩
  case attachBuf =>
    exact ⟨_, (hturn hhost).trans (hostMove_attachBuf (attachCheck_eq_none.2 ⟨hlen, hcs⟩)), Memory.read_ofContents cs⟩
  case attachVals =>
    exact ⟨_, (hturn hhost).trans (hostMove_attachVals (attachCheck_eq_none.2 ⟨hlen, hcs⟩)), Memory.read_ofContents cs⟩
  case attachDst =>
    exact ⟨_, (hturn hhost).trans (hostMove_attachDst (attachCheck_eq_none.2 ⟨hlen, hcs⟩)), Memory.read_ofContents cs⟩

end Sys2Proof.Machine
end

section
/-! The CMD words printed in the test vectors, decoded (rules R66 to R69). -/

namespace Sys2Proof

/-- Settles O1: the OP cut out of each printed word selects the row of the opcode map, and the operands are the fields printed. -/
theorem specWordsDecode : Obligations.SpecWordsDecode :=
  ⟨decode_sizeu rfl, decode_encf32 rfl, decode_encu rfl, decode_encub rfl, decode_sizes rfl, decode_encs rfl, decode_decs rfl,
    decode_illegal (.inl rfl), decode_illegal (.inr (by decide)), decode_illegal (.inr (by decide)),
    decode_illegal (.inr (by decide))⟩

end Sys2Proof
end
